-- ==== Sys2Proof/Word.lean ====
section
/-! DEFINITION. The value types of 00_scope.md R13 and R47: bytes, shorts, device-slot indices, base-operation fields. -/

namespace Sys2Proof

/-- An unsigned 8-bit value (R13). -/
abbrev Byte := BitVec 8

/-- An unsigned 16-bit value (R13): a memory address, a program counter, a short operand. -/
abbrev Short := BitVec 16

/-- A device-slot index, 0 to 15: the high nibble of a port address (R47, R70). -/
abbrev Slot := BitVec 4

/-- The base-operation field, bits 4 to 0 of an opcode byte (R92). -/
abbrev Base := BitVec 5

end Sys2Proof
end

