-- ==== Sys2Proof/Config.lean ====
section
/-! DEFINITION. What is fixed for one machine (the parameters of R8) and what its environment supplies (device replies). -/

namespace Sys2Proof

/-- `BASE_CODE` (R8, R94): the base-operation values of the five operations the source gives no number for. -/
structure BaseCode where
  inc : Base
  dei : Base
  deo : Base
  add : Base
  sub : Base
  deriving DecidableEq, Repr

/-- The five values are different from each other and from 0, the BRK/LIT slot (R94: one value, one operation). -/
abbrev BaseCode.valid (bc : BaseCode) : Prop :=
  [0, bc.inc, bc.dei, bc.deo, bc.add, bc.sub].Nodup

/-- `DEVICE_LATCH` (R8, R78): may a notified device change the bytes of its own slot? -/
inductive DeviceLatch where
  | none
  | ownSlotAny
  deriving DecidableEq, Repr

/-- The parameters of R8 that the source does not fix. They are no state (R30): no step changes them. -/
structure Params where
  baseCode      : BaseCode
  /-- `STACK_CAPACITY`, the most bytes a stack holds (R37; D37: the same for both stacks). -/
  stackCapacity : Nat
  /-- `DEVICES` (R70, R74): the slots that have a device; every other slot has none. -/
  attached      : List Slot
  latch         : DeviceLatch
  deriving DecidableEq, Repr

/-- `notify_result` (R10, R75). -/
inductive NotifyResult where
  | ok
  | unknownPort
  deriving DecidableEq, Repr, Inhabited

/-- The value a notification carries: a byte for write-byte, a short for write-short (R72, R73). -/
inductive NotifyValue where
  | byte  (v : Byte)
  | short (v : Short)
  deriving DecidableEq, Repr

/-- The payload of `notify_write_byte` and `notify_write_short` (R10): the read-only views of the I/O page and of memory,
the full 8-bit port address (D14) and the value. -/
structure Notification where
  ioView  : List Host.Cell
  memView : List Host.Cell
  port    : Byte
  value   : NotifyValue
  deriving DecidableEq, Repr

/-- What a device gives back for one notification: its result (R75) and, used only under
`DEVICE_LATCH = own_slot_any`, the bytes its 16 ports hold afterwards (R78). -/
structure DeviceReply where
  result  : NotifyResult
  latched : Vector Byte 16
  deriving DecidableEq, Repr, Inhabited

/-- FREE VALUE (log entry 5). The reply of an attached device once the listed replies (`State.replies`) are used up, for
the draw number and the notification. It has no body: nothing can be proved of it that does not hold of every reply. -/
opaque Config.freeReply : Nat → Notification → DeviceReply

end Sys2Proof
end

