-- ==== Sys2Proof/Machine/Defaults.lean ====
section
/-! DEFINITION. The default value of each parameter of R8, in a place where a repair may mend it. -/

namespace Sys2Proof

/-- The default `BASE_CODE` (R8, R94, D1). PRESUMED (log entry 1): the Uxn numbering, not a fact of the source. -/
def BaseCode.uxn : BaseCode :=
  { inc := 0x01, dei := 0x16, deo := 0x17, add := 0x18, sub := 0x19 }

/-- MUL, DIV and SFT under the same numbering (R94): reserved, no semantics. PRESUMED (log entry 1). -/
def reservedBases : List Base := [0x1A, 0x1B, 0x1F]

/-- The parameters a machine has unless it is given others: R8's defaults, and no device attached (log entry 3). -/
def Params.standard : Params :=
  { baseCode := BaseCode.uxn, stackCapacity := 255, attached := [], latch := .none }

/-- `RESET_PC` (R8, R31, R231), where the image is loaded too (R235). -/
def resetPc : Short := 0x0100

/-- `MEM_SIZE` (R8, R46). -/
def memSize : Nat := 65536

/-- `IO_SIZE` (R8, R47). -/
def ioSize : Nat := 256

/-- The most bytes `load` takes (R10, R236): from 0x0100 to the top of memory. -/
def maxImage : Nat := 0xFF00

end Sys2Proof
end

