-- ==== Sys2Proof/Syntax.lean ====
section
/-! DEFINITION. The instructions: one constructor per row of spec/opcode_table.json. -/

namespace Sys2Proof

/-- One constructor per row of spec/opcode_table.json (R101, R102, R138). The three `illegal` constructors are the table's
fault rows, with the opcode bits their encodings leave open; executing one takes the fault the row names. -/
inductive Instr where
  /-- 0x00, halt (R145). -/
  | brk
  /-- 0x20, halt with the short flag set (R146). -/
  | brk2
  /-- 0x80 and an immediate byte (R150). -/
  | lit (imm : Byte)
  /-- 0xA0 and an immediate short, high byte first (R151). -/
  | lit2 (imm : Short)
  /-- Increment the top byte (R165). -/
  | inc
  /-- Increment the top short (R166). -/
  | inc2
  /-- Read a byte from a port (R185). -/
  | dei
  /-- Read a short from a port (R186). -/
  | dei2
  /-- Write a byte to a port (R180). -/
  | deo
  /-- Write a short to a port (R181). -/
  | deo2
  /-- Add two bytes (R170). -/
  | add
  /-- Add two shorts (R171). -/
  | add2
  /-- Subtract two bytes (R175). -/
  | sub
  /-- Subtract two shorts (R176). -/
  | sub2
  /-- `k1sbbbbb`: the return flag is set (R100, R102, R103). -/
  | illegalReturn (keep short : Bool) (base : Base)
  /-- `10sbbbbb` with a base other than 0: keep on a non-immediate opcode (R100, R102, R103). -/
  | illegalKeep (short : Bool) (base : Base)
  /-- `00sbbbbb` with a base no operation has (R100, R102, R103). -/
  | illegalBase (short : Bool) (base : Base)
  deriving DecidableEq, Repr

/-- The seven base operations of R2, as the assembler names them (R118). -/
inductive Mnemonic where
  | brk | inc | deo | dei | add | sub | lit
  deriving DecidableEq, Repr

/-- The flag suffixes `2`, `k` and `r` of a mnemonic (R118). -/
structure FlagSet where
  short : Bool
  keep  : Bool
  ret   : Bool
  deriving DecidableEq, Repr

end Sys2Proof
end

