-- ==== Sys2Proof/WellFormed.lean ====
section
/-! DEFINITION. Which terms of `Instr` stand for an encoding: the side conditions of the table's fault rows (R102, R138). -/

namespace Sys2Proof

/-- The base values that name an operation (R94, R100). -/
def BaseCode.assigned (bc : BaseCode) : List Base :=
  [0, bc.inc, bc.dei, bc.deo, bc.add, bc.sub]

/-- An illegal row's term is well formed when its base meets the row's condition (R102): not 0 for the keep row, not an
assigned value for the unassigned row. Every other term is. -/
def Instr.wellFormed (bc : BaseCode) : Instr → Bool
  | .brk => true
  | .brk2 => true
  | .lit _ => true
  | .lit2 _ => true
  | .inc => true
  | .inc2 => true
  | .dei => true
  | .dei2 => true
  | .deo => true
  | .deo2 => true
  | .add => true
  | .add2 => true
  | .sub => true
  | .sub2 => true
  | .illegalReturn _ _ _ => true
  | .illegalKeep _ base => base != 0
  | .illegalBase _ base => !(bc.assigned.contains base)

end Sys2Proof
end

