-- ==== Sys2Proof/Decode.lean ====
section
/-! DEFINITION. The decoder (R100), total on any bytes, and after it the encoder, from the same tables. -/

namespace Sys2Proof

/-! ### Parts of bytes and shorts (R12, R13) -/

/-- `hi8(v) = v[15:8]` (R13). -/
def hi8 (v : Short) : Byte := v.extractLsb' 8 8

/-- `lo8(v) = v[7:0]` (R13). -/
def lo8 (v : Short) : Byte := v.extractLsb' 0 8

/-- The concatenation `hi:lo` (R13). -/
def joinShort (hi lo : Byte) : Short := hi ++ lo

/-- `b[4:0]`, the base operation (R92). -/
def baseField (b : Byte) : Base := b.extractLsb' 0 5

/-- `b[5]`, the short-mode flag (R92). -/
def shortFlag (b : Byte) : Bool := b.getLsbD 5

/-- `b[6]`, the return flag (R92; 90_conflicts.md C1). -/
def returnFlag (b : Byte) : Bool := b.getLsbD 6

/-- `b[7]`, the keep flag (R92; 90_conflicts.md C1). -/
def keepFlag (b : Byte) : Bool := b.getLsbD 7

/-! ### The decoder -/

/-- What the decoder says of ONE opcode byte (R100): a base operation with its short flag, or which check it breaks. -/
inductive OpcodeClass where
  | op (m : Mnemonic) (short : Bool)
  /-- The return flag is set: `UnimplementedFeature`. -/
  | returnFlagSet
  /-- The keep flag is set on a base other than 0: `UnimplementedFeature`. -/
  | keepFlagSet
  /-- A base value no operation has: `UnknownOpcode`. -/
  | unassignedBase
  deriving DecidableEq, Repr

/-- `decode(b)` of R100: the checks in its order (D6), a function of the byte and `BASE_CODE` alone (R105). -/
def classify (bc : BaseCode) (b : Byte) : OpcodeClass :=
  if returnFlag b then .returnFlagSet
  else if keepFlag b then
    if baseField b = 0 then .op .lit (shortFlag b) else .keepFlagSet
  else if baseField b = 0 then .op .brk (shortFlag b)
  else if baseField b = bc.inc then .op .inc (shortFlag b)
  else if baseField b = bc.dei then .op .dei (shortFlag b)
  else if baseField b = bc.deo then .op .deo (shortFlag b)
  else if baseField b = bc.add then .op .add (shortFlag b)
  else if baseField b = bc.sub then .op .sub (shortFlag b)
  else .unassignedBase

/-- The instruction of a decoder answer for the opcode byte `b`, with the two bytes after it as LIT's immediate (R91, R93,
R101): a byte for LIT, a short with its high byte first for LIT2; no other instruction looks at them. -/
def instrOf (c : OpcodeClass) (b i1 i2 : Byte) : Instr :=
  match c with
  | .op .brk false => .brk
  | .op .brk true => .brk2
  | .op .lit false => .lit i1
  | .op .lit true => .lit2 (joinShort i1 i2)
  | .op .inc false => .inc
  | .op .inc true => .inc2
  | .op .dei false => .dei
  | .op .dei true => .dei2
  | .op .deo false => .deo
  | .op .deo true => .deo2
  | .op .add false => .add
  | .op .add true => .add2
  | .op .sub false => .sub
  | .op .sub true => .sub2
  | .returnFlagSet => .illegalReturn (keepFlag b) (shortFlag b) (baseField b)
  | .keepFlagSet => .illegalKeep (shortFlag b) (baseField b)
  | .unassignedBase => .illegalBase (shortFlag b) (baseField b)

/-- The instruction an opcode byte and the two bytes after it start. -/
def decodeWindow (bc : BaseCode) (b i1 i2 : Byte) : Instr := instrOf (classify bc b) b i1 i2

/-- The bytes an instruction occupies from its opcode on (R91). An illegal opcode byte has no length: the step ends at the
decode, when only the opcode byte has been fetched, and this is that one byte. -/
def Instr.size : Instr → Nat
  | .lit _ => 2
  | .lit2 _ => 3
  | .brk | .brk2 | .inc | .inc2 | .dei | .dei2 | .deo | .deo2 | .add | .add2 | .sub | .sub2 => 1
  | .illegalReturn _ _ _ | .illegalKeep _ _ | .illegalBase _ _ => 1

/-- Why a byte string starts with no whole instruction. -/
inductive DecodeError where
  /-- There is no opcode byte. -/
  | noOpcode
  /-- The opcode is LIT or LIT2 and its immediate is cut off. -/
  | truncatedImmediate
  deriving DecidableEq, Repr

/-- What decoding a byte string gives: the first instruction and the bytes after it, or a rejection by name. -/
inductive Decoded where
  | instr (i : Instr) (rest : List Byte)
  | rejected (why : DecodeError)
  deriving DecidableEq, Repr

/-- Decode the instruction at the front of a byte string; total. -/
def decode (bc : BaseCode) : List Byte → Decoded
  | [] => .rejected .noOpcode
  | b :: after =>
    let i := decodeWindow bc b (after.getD 0 0) (after.getD 1 0)
    if after.length + 1 < i.size then .rejected .truncatedImmediate
    else .instr i (after.drop (i.size - 1))

/-! ### The encoder -/

/-- An opcode byte from its fields, `k r s b4 b3 b2 b1 b0` (R92, R138). -/
def opcodeByte (keep ret short : Bool) (base : Base) : Byte :=
  BitVec.ofBool keep ++ BitVec.ofBool ret ++ BitVec.ofBool short ++ base

/-- The opcode byte of an instruction (R101, R102). -/
def Instr.opcode (bc : BaseCode) : Instr → Byte
  | .brk => opcodeByte false false false 0
  | .brk2 => opcodeByte false false true 0
  | .lit _ => opcodeByte true false false 0
  | .lit2 _ => opcodeByte true false true 0
  | .inc => opcodeByte false false false bc.inc
  | .inc2 => opcodeByte false false true bc.inc
  | .dei => opcodeByte false false false bc.dei
  | .dei2 => opcodeByte false false true bc.dei
  | .deo => opcodeByte false false false bc.deo
  | .deo2 => opcodeByte false false true bc.deo
  | .add => opcodeByte false false false bc.add
  | .add2 => opcodeByte false false true bc.add
  | .sub => opcodeByte false false false bc.sub
  | .sub2 => opcodeByte false false true bc.sub
  | .illegalReturn keep short base => opcodeByte keep true short base
  | .illegalKeep short base => opcodeByte true false short base
  | .illegalBase short base => opcodeByte false false short base

/-- The immediate bytes after the opcode (R91, R93): one for LIT, high then low for LIT2. -/
def Instr.immediate : Instr → List Byte
  | .lit imm => [imm]
  | .lit2 imm => [hi8 imm, lo8 imm]
  | .brk | .brk2 | .inc | .inc2 | .dei | .dei2 | .deo | .deo2 | .add | .add2 | .sub | .sub2 => []
  | .illegalReturn _ _ _ | .illegalKeep _ _ | .illegalBase _ _ => []

/-- The bytes of an instruction (R91, R101). -/
def encode (bc : BaseCode) (i : Instr) : List Byte :=
  i.opcode bc :: i.immediate

/-- `BASE_CODE(mnemonic)` (R118): BRK and LIT are base 0. -/
def Mnemonic.base (bc : BaseCode) : Mnemonic → Base
  | .brk => 0
  | .lit => 0
  | .inc => bc.inc
  | .dei => bc.dei
  | .deo => bc.deo
  | .add => bc.add
  | .sub => bc.sub

/-- The assembler's byte for a mnemonic and its flags (R118): `BASE_CODE | 0x20·[2] | 0x80·[k] | 0x40·[r]`, where LIT means
base 0 with keep already set. -/
def encodeMnemonic (bc : BaseCode) (m : Mnemonic) (f : FlagSet) : Byte :=
  opcodeByte (f.keep || m == .lit) f.ret f.short (m.base bc)

/-- The flag combinations the assembler accepts (R118, D26): `2` on any mnemonic, `k` on LIT alone, `r` on none. -/
def validFlags (m : Mnemonic) (f : FlagSet) : Bool :=
  !f.ret && (!f.keep || m == .lit)

/-! ### The table's words -/

/-- Byte `n` of an instruction word numbered as spec/opcode_table.json numbers it, bits at and above `nbits` read as 0. -/
def tableByte (nbits w n : Nat) : Byte :=
  BitVec.ofNat 8 ((w % 2 ^ nbits) / 2 ^ (8 * n))

/-- The instruction the decoder, under the default `BASE_CODE`, reads from a word of the opcode table. -/
def decodeTableWord (nbits w : Nat) : Option Instr :=
  match decode BaseCode.uxn [tableByte nbits w 0, tableByte nbits w 1, tableByte nbits w 2] with
  | .instr i _ => some i
  | .rejected _ => none

end Sys2Proof
end

