-- ==== Sys2Proof/Machine/State.lean ====
section
/-! DEFINITION. The machine's state as plain data: all that R30 and R230 list, and the step's parameters and inputs. -/

namespace Sys2Proof.Machine

/-- The fault kinds of R200. A fatal error is a STATE here, not a stop of the model: `run` becomes `Faulted(kind)` (R205), so
no step ever answers `Host.Outcome.fault`. Every kind is safe: it is the spec's own outcome. -/
inductive Fault where
  /-- Raised by INC, INC2, ADD, ADD2, SUB, SUB2, DEO, DEO2, DEI and DEI2 on too few bytes (R39, R40). Safe. -/
  | stackUnderflow
  /-- Raised by LIT, LIT2 and DEI2 on a stack of `STACK_CAPACITY` bytes (R38). Safe. -/
  | stackOverflow
  /-- Raised by the decoder on a base value no operation has (R100). Safe. -/
  | unknownOpcode
  /-- Raised by the decoder on the return flag, or on keep with a base other than 0 (R100). Safe. -/
  | unimplementedFeature
  /-- Raised by DEO and DEO2 when the device does not know the port (R75). Safe. -/
  | unknownPort
  /-- Raised by DEO2 at a port with low nibble 0xF (R73). Safe. -/
  | crossDeviceShortWrite
  /-- Raised by DEI2 at port 0xFF (R76). Safe. -/
  | ioPageBounds
  deriving DecidableEq, Repr

/-- What the model refuses. No instruction and no step is refused; the host's `load` requests can be. -/
inductive Refusal where
  /-- An instruction without a meaning in `exec`; no arm answers it. Safe. -/
  | notModelled (mnemonic : String)
  /-- `load` of an image over 0xFF00 bytes (R236, D22); raised by the host interface. Safe. -/
  | imageTooLong
  /-- `load` after the first step or a second time (R237, D22); raised by the host interface. Safe. -/
  | loadNotAdmitted
  deriving DecidableEq, Repr

/-- `run` (R45). `Faulted` carries the fault record of R201: the kind, and the address `A` of the opcode byte. -/
inductive RunState where
  | running
  | halted
  | faulted (kind : Fault) (opcodeAddr : Short)
  deriving DecidableEq, Repr

/-- One device notification of the event history (R85): slot, port address, value, and the device's result. -/
inductive Event where
  | writeByte  (slot : Slot) (port : Byte) (value : Byte) (result : NotifyResult)
  | writeShort (slot : Slot) (port : Byte) (value : Short) (result : NotifyResult)
  deriving DecidableEq, Repr

/-- A stack: bottom first, the top at the end (R35). -/
abbrev Stack := List Byte

/-- Bytes by address; an address not listed reads as `unlistedByte`. The form is `Memory.wf`. -/
abbrev Memory := List Host.Cell

/-- Which of the two stacks (R30). -/
inductive StackId where
  | wst
  | rst
  deriving DecidableEq, Repr

/-- The state: the six elements of R30, the event history (R85, R230), and three fields that are the step's inputs, not
the machine's state: the parameters of R8, the device replies still to come, and the count of free replies drawn. -/
structure State where
  /-- The program counter (R31). -/
  pc      : Short
  /-- The working stack (R35). -/
  wst     : Stack
  /-- The return stack (R36). -/
  rst     : Stack
  /-- The 65,536 bytes of memory (R46). -/
  mem     : Memory
  /-- The 256 bytes of the I/O page (R47). -/
  io      : Memory
  /-- The run state (R45). -/
  run     : RunState
  /-- The event history, oldest first (R85). -/
  events  : List Event
  /-- The parameters of the step (R8, R30). -/
  params  : Params
  /-- INPUT: the replies attached devices will give, next first (R75, D13, D35; log entry 5). -/
  replies : List DeviceReply
  /-- MODEL'S OWN: how many free replies have been drawn (log entry 5). -/
  draws   : Nat
  deriving DecidableEq, Repr

/-- The state right after `reset` (R230) of a machine with the given parameters. -/
def State.resetWith (params : Params) : State :=
  { pc := resetPc, wst := [], rst := [], mem := [], io := [], run := .running, events := [],
    params := params, replies := [], draws := 0 }

/-- The state right after `reset` (R230) of the standard machine (log entry 3 on its parameters). -/
def State.reset : State := State.resetWith Params.standard

end Sys2Proof.Machine
end

