-- ==== Sys2Proof/Machine/Ops.lean ====
section
/-! DEFINITION. The named operations: memory, the order of effects within a step, faults, reset, load, the device bus. -/

namespace Sys2Proof.Machine

/-! ### Bytes by address -/

/-- What an address that no entry lists reads as: memory and the I/O page reset to 0x00 (R46, R47, R230; D10). -/
def unlistedByte : Byte := 0x00

/-- The byte at an address. -/
def Memory.read : Memory → Nat → Byte
  | [], _ => unlistedByte
  | (k, v) :: rest, a => if k = a then v else Memory.read rest a

/-- Put an entry before the first one at a higher address. -/
def Memory.insertSorted : Memory → Nat → Byte → Memory
  | [], a, v => [(a, v)]
  | (k, w) :: rest, a, v =>
    if a < k then (a, v) :: (k, w) :: rest else (k, w) :: Memory.insertSorted rest a v

/-- Write one byte: the address's entry goes, and a new one comes unless the value is what an unlisted address reads as. -/
def Memory.write (m : Memory) (a : Nat) (v : Byte) : Memory :=
  let others : Memory := m.filter (fun c => c.1 != a)
  if v = unlistedByte then others else Memory.insertSorted others a v

/-- Write bytes at rising addresses from `a` on. -/
def Memory.writeBytes : Memory → Nat → List Byte → Memory
  | m, _, [] => m
  | m, a, b :: rest => Memory.writeBytes (Memory.write m a b) (a + 1) rest

/-- The canonical form below a size: addresses strictly rising and below it, no entry of the unlisted value. -/
abbrev Memory.wfBelow (size : Nat) (m : Memory) : Prop :=
  m.Pairwise (fun c d => c.1 < d.1) ∧ ∀ c ∈ m, c.1 < size ∧ c.2 ≠ unlistedByte

/-- The canonical form of the 65,536-byte memory (R46). -/
abbrev Memory.wf (m : Memory) : Prop := Memory.wfBelow memSize m

/-- The canonical form of the 256-byte I/O page (R47). -/
abbrev Memory.wfIo (m : Memory) : Prop := Memory.wfBelow ioSize m

/-! ### Memory reads (R61, R62) -/

/-- `MemRead(addr, 1)`: any 16-bit address, no side effect, no fault (R62, R69). -/
def memRead (s : State) (addr : Short) : Byte := s.mem.read addr.toNat

/-- `MemRead(addr, 2)`: the high byte at the lower address, the second address mod 2^16 (R62). -/
def memRead2 (s : State) (addr : Short) : Short :=
  joinShort (memRead s addr) (memRead s (addr + 1))

/-- The instruction at `pc`: its opcode byte and what follows it, at addresses mod 2^16 (R93, R140). -/
def fetchInstr (s : State) : Instr :=
  decodeWindow s.params.baseCode (memRead s s.pc) (memRead s (s.pc + 1)) (memRead s (s.pc + 2))

/-! ### The order of effects within a step (R15) -/

/-- What a line of a rule's pseudocode does: go on with a value, or raise a fault. Either way the effects so far stand in
the state (R205: they are not undone). -/
inductive Micro (α : Type) where
  | ok    (value : α) (s : State)
  | raise (kind : Fault) (s : State)
  deriving DecidableEq, Repr

/-- The next line of the pseudocode; a raise ends the step and no later line runs (R15). -/
def Micro.andThen {α β : Type} (m : Micro α) (next : α → State → Micro β) : Micro β :=
  match m with
  | .ok a s => next a s
  | .raise k s => .raise k s

/-- Taking a fault (R205): `run <- Faulted(kind)`, with the record of R201. Nothing is saved, nothing undone, no handler
entered. There is no return from it (R206) but `reset`. -/
def takeFault (kind : Fault) (opcodeAddr : Short) (s : State) : State :=
  { s with run := .faulted kind opcodeAddr }

/-- `halt` (R14, R145): `run <- Halted`. -/
def halt (s : State) : State := { s with run := .halted }

/-- `pc <- pc + n`, mod 2^16 (R32). -/
def advance (n : Nat) (s : State) : State := { s with pc := s.pc + BitVec.ofNat 16 n }

/-- One step around an instruction's own lines (R140): the opcode fetch has moved `pc` from `A` to `A + 1`, the lines run,
and a raise anywhere in them takes the fault with `A` as its record's address. -/
def runLines (lines : State → Micro Unit) (s : State) : Host.Outcome State Fault Refusal :=
  match lines (advance 1 s) with
  | .ok _ t => .next t
  | .raise kind t => .next (takeFault kind s.pc t)

/-- A step request when the run state is `Halted` or `Faulted`: nothing changes, nothing is fetched (R143). -/
def stepWhenStopped (s : State) : Host.Outcome State Fault Refusal := .next s

/-! ### Reset and load -/

/-- `reset` (R230): every state element takes its reset value; the parameters are no state (R30), and the devices' side of
the interface is outside the block and is not reset. -/
def resetCore (s : State) : State :=
  { State.resetWith s.params with replies := s.replies, draws := s.draws }

/-- `load(image)` (R235): the image verbatim from 0x0100 on. -/
def loadImage (image : List Byte) (s : State) : State :=
  { s with mem := s.mem.writeBytes resetPc.toNat image }

/-- Put the bytes of an opcode-table word where the next step fetches them, and let it fetch. -/
def storeFetchWord (s : State) (nbits w : Nat) : State :=
  let put (m : Memory) (n : Nat) : Memory :=
    m.write (s.pc + BitVec.ofNat 16 n).toNat (tableByte nbits w n)
  { s with mem := put (put (put s.mem 0) 1) 2, run := .running }

/-! ### The device bus -/

/-- `slot(p) = p[7:4]` (R47, R70). -/
def slotOf (p : Byte) : Slot := p.extractLsb' 4 4

/-- `portin(p) = p[3:0]` (R47). -/
def portIn (p : Byte) : BitVec 4 := p.extractLsb' 0 4

/-- The first port address of a slot. -/
def slotBase (slot : Slot) : Nat := 16 * slot.toNat

/-- The byte of the I/O page at a port address. -/
def ioByte (s : State) (p : Byte) : Byte := s.io.read p.toNat

/-- The reply of an attached device to a notification, and the state after taking it: the next listed one, or a free one
when none is listed (R75, D13; log entry 5). -/
def takeReply (n : Notification) (s : State) : DeviceReply × State :=
  match s.replies with
  | r :: rest => (r, { s with replies := rest })
  | [] => (Config.freeReply s.draws n, { s with draws := s.draws + 1 })

/-- What a notified device may change (R78): nothing under `none`; under `own_slot_any` the 16 bytes of its own slot hold
whatever its reply says. -/
def latchSlot (slot : Slot) (latched : Vector Byte 16) (s : State) : State :=
  match s.params.latch with
  | .none => s
  | .ownSlotAny => { s with io := s.io.writeBytes (slotBase slot) latched.toList }

/-- Notify the device of the port's slot and no other (R70). A slot with no device does nothing and answers `Ok` (R74). -/
def exchange (n : Notification) (s : State) : NotifyResult × State :=
  if s.params.attached.contains (slotOf n.port) then
    let (r, t) := takeReply n s
    (r.result, latchSlot (slotOf n.port) r.latched t)
  else (.ok, s)

/-- The event a notification leaves in the history (R85). -/
def eventOf (p : Byte) (v : NotifyValue) (r : NotifyResult) : Event :=
  match v with
  | .byte b => .writeByte (slotOf p) p b r
  | .short w => .writeShort (slotOf p) p w r

/-- Append an event to the history (R85: in the order made). -/
def record (e : Event) (s : State) : State := { s with events := s.events ++ [e] }

/-- The payload handed to a device: the two views as they are now, the full port address (D14), the value (R10, R71). -/
def notificationOf (p : Byte) (v : NotifyValue) (s : State) : Notification :=
  { ioView := s.io, memView := s.mem, port := p, value := v }

/-- The last three lines of R72 and R73: notify, record the event, and raise `UnknownPort` if that is the answer. What was
written to the I/O page stays (R75, D24). -/
def notify (p : Byte) (v : NotifyValue) (s : State) : Micro Unit :=
  let (r, t) := exchange (notificationOf p v s) s
  let u := record (eventOf p v r) t
  match r with
  | .ok => .ok () u
  | .unknownPort => .raise .unknownPort u

/-- Write one byte of the I/O page. -/
def ioStore (p : Byte) (v : Byte) (s : State) : State := { s with io := s.io.write p.toNat v }

/-- `IoWrite(p, 1, v)` (R72): the I/O page first, then the device (R71). -/
def ioWrite (p : Byte) (v : Byte) (s : State) : Micro Unit :=
  notify p (.byte v) (ioStore p v s)

/-- `IoWrite(p, 2, v)` (R73): the crossing check before any byte is written (D15); the high byte at the lower port (D17);
one notification with the whole short. -/
def ioWrite2 (p : Byte) (v : Short) (s : State) : Micro Unit :=
  if portIn p = 0xF then .raise .crossDeviceShortWrite s
  else notify p (.short v) (ioStore (p + 1) (lo8 v) (ioStore p (hi8 v) s))

/-- `IoRead(p, 1)` (R76): no device is notified and nothing changes (R77). -/
def ioRead (p : Byte) (s : State) : Micro Byte := .ok (ioByte s p) s

/-- `IoRead(p, 2)` (R76): the high byte at the lower port; port 0xFF has no second byte (D16). -/
def ioRead2 (p : Byte) (s : State) : Micro Short :=
  if p = 0xFF then .raise .ioPageBounds s
  else .ok (joinShort (ioByte s p) (ioByte s (p + 1))) s

end Sys2Proof.Machine
end

