-- ==== Sys2Proof/Machine/Operands.lean ====
section
/-! DEFINITION. The operand forms: a byte or a short popped from, pushed on, or read in place on a stack (R38 to R42). The
port address of DEO and DEI is a popped byte (R95), and LIT's immediate is a field of its instruction (R93). -/

namespace Sys2Proof.Machine

/-- The named stack. -/
def State.stack (s : State) : StackId → Stack
  | .wst => s.wst
  | .rst => s.rst

/-- The state with the named stack replaced. -/
def State.setStack (s : State) (i : StackId) (x : Stack) : State :=
  match i with
  | .wst => { s with wst := x }
  | .rst => { s with rst := x }

/-- `push(S, b)` (R38). -/
def push (i : StackId) (b : Byte) (s : State) : Micro Unit :=
  if (s.stack i).length = s.params.stackCapacity then .raise .stackOverflow s
  else .ok () (s.setStack i (s.stack i ++ [b]))

/-- `pop(S)` (R39). -/
def pop (i : StackId) (s : State) : Micro Byte :=
  match (s.stack i).getLast? with
  | none => .raise .stackUnderflow s
  | some b => .ok b (s.setStack i (s.stack i).dropLast)

/-- `push2(S, v)` (R41): the high byte, then the low byte, which ends on top. -/
def push2 (i : StackId) (v : Short) (s : State) : Micro Unit :=
  (push i (hi8 v) s).andThen fun _ t => push i (lo8 v) t

/-- `pop2(S)` (R42): the low byte from the top, then the high byte. -/
def pop2 (i : StackId) (s : State) : Micro Short :=
  (pop i s).andThen fun lo t => (pop i t).andThen fun hi u => .ok (joinShort hi lo) u

/-- `top(S, 1)` (R40). -/
def top (i : StackId) (s : State) : Micro Byte :=
  if (s.stack i).length < 1 then .raise .stackUnderflow s
  else .ok ((s.stack i).getD ((s.stack i).length - 1) 0) s

/-- `top(S, 2)` (R40): the deeper byte is the high one. -/
def top2 (i : StackId) (s : State) : Micro Short :=
  if (s.stack i).length < 2 then .raise .stackUnderflow s
  else .ok (joinShort ((s.stack i).getD ((s.stack i).length - 2) 0) ((s.stack i).getD ((s.stack i).length - 1) 0)) s

/-- `S[len-1] <- b`, in place (R165). -/
def setTop (i : StackId) (b : Byte) (s : State) : Micro Unit :=
  .ok () (s.setStack i ((s.stack i).set ((s.stack i).length - 1) b))

/-- `S[len-2] <- hi8(v); S[len-1] <- lo8(v)`, in place (R166). -/
def setTop2 (i : StackId) (v : Short) (s : State) : Micro Unit :=
  .ok () (s.setStack i
    (((s.stack i).set ((s.stack i).length - 2) (hi8 v)).set ((s.stack i).length - 1) (lo8 v)))

end Sys2Proof.Machine
end

