-- ==== Sys2Proof/Machine/Arithmetic.lean ====
section
/-! DEFINITION. INC, ADD and SUB in both modes (42_arithmetic.md). `+` and `-` on bytes and shorts wrap (R160). -/

namespace Sys2Proof.Machine

/-- INC (R165): the top byte plus one, in place. -/
def execInc (s : State) : Host.Outcome State Fault Refusal :=
  runLines (fun t => (top .wst t).andThen fun x u => setTop .wst (x + 1) u) s

/-- INC2 (R166): the top short plus one, in place. -/
def execInc2 (s : State) : Host.Outcome State Fault Refusal :=
  runLines (fun t => (top2 .wst t).andThen fun x u => setTop2 .wst (x + 1) u) s

/-- Pop `b`, then pop `a`, push `f a b` (R161: the first popped is the right operand). -/
def byteOp (f : Byte → Byte → Byte) (s : State) : Micro Unit :=
  (pop .wst s).andThen fun b t => (pop .wst t).andThen fun a u => push .wst (f a b) u

/-- The same on shorts (R161). -/
def shortOp (f : Short → Short → Short) (s : State) : Micro Unit :=
  (pop2 .wst s).andThen fun b t => (pop2 .wst t).andThen fun a u => push2 .wst (f a b) u

/-- ADD (R170). -/
def execAdd (s : State) : Host.Outcome State Fault Refusal :=
  runLines (byteOp fun a b => a + b) s

/-- ADD2 (R171). -/
def execAdd2 (s : State) : Host.Outcome State Fault Refusal :=
  runLines (shortOp fun a b => a + b) s

/-- SUB (R175): the lower value minus the top value. -/
def execSub (s : State) : Host.Outcome State Fault Refusal :=
  runLines (byteOp fun a b => a - b) s

/-- SUB2 (R176). -/
def execSub2 (s : State) : Host.Outcome State Fault Refusal :=
  runLines (shortOp fun a b => a - b) s

end Sys2Proof.Machine
end

