-- ==== Sys2Proof/Machine/Control.lean ====
section
/-! DEFINITION. BRK and BRK2 (40_step_and_control.md). -/

namespace Sys2Proof.Machine

/-- BRK (R145): halt, with `pc` at `A + 1`. -/
def execBrk (s : State) : Host.Outcome State Fault Refusal :=
  runLines (fun t => .ok () (halt t)) s

/-- BRK2 (R146): as BRK; the short flag has no effect. -/
def execBrk2 (s : State) : Host.Outcome State Fault Refusal :=
  runLines (fun t => .ok () (halt t)) s

end Sys2Proof.Machine
end

