-- ==== Sys2Proof/Machine/DeviceIo.lean ====
section
/-! DEFINITION. DEO and DEI in both modes (43_device_io.md). The port address is a byte in both modes (R95). -/

namespace Sys2Proof.Machine

/-- DEO (R180): pop the port, pop the byte, write it through the bus. -/
def execDeo (s : State) : Host.Outcome State Fault Refusal :=
  runLines (fun t => (pop .wst t).andThen fun p u => (pop .wst u).andThen fun v w => ioWrite p v w) s

/-- DEO2 (R181): pop the port, pop the short, write it through the bus. -/
def execDeo2 (s : State) : Host.Outcome State Fault Refusal :=
  runLines (fun t => (pop .wst t).andThen fun p u => (pop2 .wst u).andThen fun v w => ioWrite2 p v w) s

/-- DEI (R185): pop the port, push the I/O page's byte. -/
def execDei (s : State) : Host.Outcome State Fault Refusal :=
  runLines (fun t => (pop .wst t).andThen fun p u => (ioRead p u).andThen fun v w => push .wst v w) s

/-- DEI2 (R186): pop the port, push the I/O page's short. -/
def execDei2 (s : State) : Host.Outcome State Fault Refusal :=
  runLines (fun t => (pop .wst t).andThen fun p u => (ioRead2 p u).andThen fun v w => push2 .wst v w) s

end Sys2Proof.Machine
end

