-- ==== Sys2Proof/Machine/Illegal.lean ====
section
/-! DEFINITION. The fault rows of the opcode table: the step ends at the decode, after the fetch, with the row's fault
(R100, R102, R140, R205). -/

namespace Sys2Proof.Machine

/-- The return flag is set (R100): `UnimplementedFeature`, whatever the other bits. -/
def execIllegalReturn (_keep _short : Bool) (_base : Base) (s : State) : Host.Outcome State Fault Refusal :=
  runLines (fun t => .raise .unimplementedFeature t) s

/-- The keep flag on a base other than 0 (R100): `UnimplementedFeature`. -/
def execIllegalKeep (_short : Bool) (_base : Base) (s : State) : Host.Outcome State Fault Refusal :=
  runLines (fun t => .raise .unimplementedFeature t) s

/-- A base value no operation has (R100, R103; D7): `UnknownOpcode`. -/
def execIllegalBase (_short : Bool) (_base : Base) (s : State) : Host.Outcome State Fault Refusal :=
  runLines (fun t => .raise .unknownOpcode t) s

end Sys2Proof.Machine
end

