-- ==== Sys2Proof/Machine/Immediate.lean ====
section
/-! DEFINITION. LIT and LIT2 (41_immediate.md). The immediate is the instruction's own field: the fetch has read it from
the bytes after the opcode (R93), and nothing between the fetch and the push can change them (R65). -/

namespace Sys2Proof.Machine

/-- LIT (R150): `pc` passes the immediate byte, which is pushed. -/
def execLit (imm : Byte) (s : State) : Host.Outcome State Fault Refusal :=
  runLines (fun t => push .wst imm (advance 1 t)) s

/-- LIT2 (R151): `pc` passes the two immediate bytes, which are pushed high byte first. -/
def execLit2 (imm : Short) (s : State) : Host.Outcome State Fault Refusal :=
  runLines (fun t => push2 .wst imm (advance 2 t)) s

end Sys2Proof.Machine
end

