-- ==== Sys2Proof/Machine/Dispatch.lean ====
section
/-! DEFINITION. One arm per instruction. -/

namespace Sys2Proof.Machine

/-- The instruction's own effect, from the state in which `pc` is the address `A` of its opcode byte (R140). -/
def exec (i : Instr) (s : State) : Host.Outcome State Fault Refusal :=
  match i with
  | .brk => Sys2Proof.Machine.execBrk s
  | .brk2 => Sys2Proof.Machine.execBrk2 s
  | .lit imm => Sys2Proof.Machine.execLit imm s
  | .lit2 imm => Sys2Proof.Machine.execLit2 imm s
  | .inc => Sys2Proof.Machine.execInc s
  | .inc2 => Sys2Proof.Machine.execInc2 s
  | .dei => Sys2Proof.Machine.execDei s
  | .dei2 => Sys2Proof.Machine.execDei2 s
  | .deo => Sys2Proof.Machine.execDeo s
  | .deo2 => Sys2Proof.Machine.execDeo2 s
  | .add => Sys2Proof.Machine.execAdd s
  | .add2 => Sys2Proof.Machine.execAdd2 s
  | .sub => Sys2Proof.Machine.execSub s
  | .sub2 => Sys2Proof.Machine.execSub2 s
  | .illegalReturn keep short base => Sys2Proof.Machine.execIllegalReturn keep short base s
  | .illegalKeep short base => Sys2Proof.Machine.execIllegalKeep short base s
  | .illegalBase short base => Sys2Proof.Machine.execIllegalBase short base s

end Sys2Proof.Machine
end

