-- ==== Sys2Proof/Machine/Flags.lean ====
section
/-! DEFINITION. Status. The machine has no flags and no condition codes (R48) and no status register (R49), so no flag is
computed; its only status is the run state, reported to the host as `step_result` with the codes of R200 and D23. -/

namespace Sys2Proof.Machine

/-- The code of a fault kind (R200, D23). -/
def Fault.code : Fault → Nat
  | .stackUnderflow => 1
  | .stackOverflow => 2
  | .unknownOpcode => 3
  | .unimplementedFeature => 4
  | .unknownPort => 5
  | .crossDeviceShortWrite => 6
  | .ioPageBounds => 7

/-- `step_result` (R10). -/
inductive StepResult where
  | goOn
  | halt
  | fault (kind : Fault)
  deriving DecidableEq, Repr

/-- What a step that leaves this state reports (R142, R143, R205): the source's `false` is `goOn`, its `true` is `halt`. -/
def State.stepResult (s : State) : StepResult :=
  match s.run with
  | .running => .goOn
  | .halted => .halt
  | .faulted kind _ => .fault kind

/-- The encoding of `step_result` (D23): 0 Continue, 1 Halt, 2 Fault with the fault's code alongside. -/
def StepResult.code : StepResult → Nat × Option Nat
  | .goOn => (0, none)
  | .halt => (1, none)
  | .fault kind => (2, some kind.code)

/-- The fault record (R201): the kind and the opcode's address. -/
def State.faultRecord (s : State) : Option (Fault × Short) :=
  match s.run with
  | .running => none
  | .halted => none
  | .faulted kind addr => some (kind, addr)

end Sys2Proof.Machine
end

