-- ==== Sys2Proof/Machine/Step.lean ====
section
/-! DEFINITION. The step (R140, R143). -/

namespace Sys2Proof.Machine

/-- One `step` request: while running, the instruction at `pc` is executed (R140); halted or faulted, nothing changes (R143). -/
def step (s : State) : Host.Outcome State Fault Refusal :=
  match s.run with
  | .running => exec (fetchInstr s) s
  | .halted => stepWhenStopped s
  | .faulted _ _ => stepWhenStopped s

/-- `s` with an opcode-table word where `step` fetches its next instruction (log entry 16: this stands for `load`). -/
def State.withFetchWord (s : State) (nbits w : Nat) : State := storeFetchWord s nbits w

end Sys2Proof.Machine
end

