-- ==== Sys2Proof/Machine/Assembler.lean ====
section
/-! DEFINITION. The toolchain of R115 to R136, which makes the image that `load` takes. It is software, no part of the
machine (R6): nothing in State, exec or step refers to it. -/

namespace Sys2Proof.Machine

/-- A name, a word, or a whole source text. -/
abbrev AsmText := List Char

/-- The assembler's errors (R136). -/
inductive AsmError where
  /-- The parser's error and a sub-label's without a parent, with the position of the offending word (R128, D34). -/
  | syntaxError (position : Nat)
  | undefinedMacro (name : AsmText)
  | undefinedLabel (name : AsmText)
  /-- A byte written below 0x0100 (R133). -/
  | zeroPageWriteViolation
  /-- Named by the source for file access, which is out of scope (R5); never raised here. -/
  | ioError
  /-- A macro definition or invocation left after expansion (R130). -/
  | internalConsistency
  /-- `.name` with an address over 0x00FF (R123, D32). -/
  | zeroPageAddressRange
  /-- A byte, or a reference's address, above 0xFFFF, or a pad above 0x10000 (R131, D31). -/
  | cursorRange
  deriving DecidableEq, Repr

/-- `SUBADDR_SYNTAX` (R124, D34), an open parameter: which words are sub-address references, and of what pair. -/
abbrev SubAddrSyntax := AsmText → Option (AsmText × AsmText)

/-- An item of the intermediate form (R117, R129, R131), in the order of the source (R128). Mnemonics, raw bytes and
immediate literals are literal bytes. A sub-label keeps its position, for the error of R121; a macro's body is a sequence of
items, which may hold definitions (R117, R127). -/
inductive AsmItem where
  | byte (b : Byte)
  | label (name : AsmText)
  | subLabel (name : AsmText) (position : Nat)
  | padAbsolute (addr : Short)
  | padRelative (delta : Short)
  | zeroPageRef (name : AsmText)
  | absoluteRef (name : AsmText)
  | subRef (parent child : AsmText)
  | macroCall (name : AsmText)
  | macroDef (name : AsmText) (body : List AsmItem)
  deriving Repr

/-! ### Words (R115, R116) -/

/-- White space: space, newline, tab, carriage return and the square brackets (R115, D27). -/
def isBlank (c : Char) : Bool :=
  c == ' ' || c == '\n' || c == '\t' || c == '\r' || c == '[' || c == ']'

/-- The opening brace of a macro body. -/
def openBrace : Char := Char.ofNat 0x7B

/-- The closing brace of a macro body. -/
def closeBrace : Char := Char.ofNat 0x7D

/-- Where the scanner stands; a word's characters are kept last first. -/
inductive LexMode where
  | between
  | word (start : Nat) (chars : AsmText)
  | comment (start : Nat)
  | afterComment
  deriving DecidableEq, Repr

/-- Cut a source into words with their positions. A comment runs to the first `)`, must close, and is dropped (R116); like
every token it is followed by white space or the end (R117). -/
def lex : AsmText → Nat → LexMode → Except AsmError (List (Nat × AsmText))
  | [], _, .between => .ok []
  | [], _, .word start chars => .ok [(start, chars.reverse)]
  | [], _, .comment start => .error (.syntaxError start)
  | [], _, .afterComment => .ok []
  | c :: rest, pos, .between =>
    if isBlank c then lex rest (pos + 1) .between
    else if c = '(' then lex rest (pos + 1) (.comment pos)
    else lex rest (pos + 1) (.word pos [c])
  | c :: rest, pos, .word start chars =>
    if isBlank c then do
      let more ← lex rest (pos + 1) .between
      .ok ((start, chars.reverse) :: more)
    else lex rest (pos + 1) (.word start (c :: chars))
  | c :: rest, pos, .comment start =>
    if c = ')' then lex rest (pos + 1) .afterComment else lex rest (pos + 1) (.comment start)
  | c :: rest, pos, .afterComment =>
    if isBlank c then lex rest (pos + 1) .between else .error (.syntaxError pos)

/-! ### Single words (R117 to R127) -/

/-- A hexadecimal digit: `0`-`9` and lower-case `a`-`f` (R119, D27). -/
def hexDigit (c : Char) : Option (BitVec 4) :=
  let n := c.toNat
  if 48 ≤ n ∧ n ≤ 57 then some (BitVec.ofNat 4 (n - 48))
  else if 97 ≤ n ∧ n ≤ 102 then some (BitVec.ofNat 4 (n - 87))
  else none

/-- The digits of a run of hexadecimal digits. -/
def hexDigits : AsmText → Option (List (BitVec 4))
  | [] => some []
  | c :: rest =>
    match hexDigit c, hexDigits rest with
    | some d, some ds => some (d :: ds)
    | _, _ => none

/-- One byte a pair, the first digit the high nibble; an odd number of digits is none (R119). -/
def pairBytes : List (BitVec 4) → Option (List Byte)
  | [] => some []
  | [_] => none
  | h :: l :: rest => (pairBytes rest).map (fun bs => (h ++ l) :: bs)

/-- The bytes a run of hexadecimal digits stands for. -/
def hexBytes (w : AsmText) : Option (List Byte) := (hexDigits w).bind pairBytes

/-- A pad's literal: 2 or 4 digits, zero-extended (R125, R126, D33). -/
def padLiteral (w : AsmText) : Option Short :=
  match hexBytes w with
  | some [b] => some (joinShort 0 b)
  | some [h, l] => some (joinShort h l)
  | _ => none

/-- The opcode of LIT and of LIT2, as the assembler emits it (R118, R120, R122, R123). -/
def litOpcode (bc : BaseCode) (short : Bool) : Byte :=
  encodeMnemonic bc .lit { short := short, keep := false, ret := false }

/-- The mnemonic a word begins with, and what follows it (R118). -/
def mnemonicOf : AsmText → Option (Mnemonic × AsmText)
  | 'B' :: 'R' :: 'K' :: rest => some (.brk, rest)
  | 'I' :: 'N' :: 'C' :: rest => some (.inc, rest)
  | 'D' :: 'E' :: 'O' :: rest => some (.deo, rest)
  | 'D' :: 'E' :: 'I' :: rest => some (.dei, rest)
  | 'A' :: 'D' :: 'D' :: rest => some (.add, rest)
  | 'S' :: 'U' :: 'B' :: rest => some (.sub, rest)
  | 'L' :: 'I' :: 'T' :: rest => some (.lit, rest)
  | _ => none

/-- The flag letters after a mnemonic, each at most once: a subset (R118). -/
def flagLetters : AsmText → FlagSet → Option FlagSet
  | [], f => some f
  | c :: rest, f =>
    if c = '2' then (if f.short then none else flagLetters rest { f with short := true })
    else if c = 'k' then (if f.keep then none else flagLetters rest { f with keep := true })
    else if c = 'r' then (if f.ret then none else flagLetters rest { f with ret := true })
    else none

/-- A name has at least one character and no parenthesis or brace. -/
def nameOk (n : AsmText) : Bool :=
  !n.isEmpty && n.all (fun c => c != '(' && c != ')' && c != openBrace && c != closeBrace)

/-- The items of a word that is no directive: a mnemonic, then a run of digits, then a macro call (R117, D27). A mnemonic
followed by anything but valid flags is an error, not a shorter match (R118); an unknown name is one too (R127). -/
def plainWord (bc : BaseCode) (known : List AsmText) (w : AsmText) : Option (List AsmItem) :=
  match mnemonicOf w with
  | some (m, suffix) =>
    match flagLetters suffix { short := false, keep := false, ret := false } with
    | some f => if validFlags m f then some [.byte (encodeMnemonic bc m f)] else none
    | none => none
  | none =>
    match hexDigits w with
    | some ds => (pairBytes ds).map (fun bs => bs.map AsmItem.byte)
    | none => if known.contains w then some [.macroCall w] else none

/-- The items of the word at a position, if it is neither a macro definition's first word nor a brace (R117 to R127). -/
def wordItems (sub : SubAddrSyntax) (bc : BaseCode) (known : List AsmText) (pos : Nat) (w : AsmText) :
    Option (List AsmItem) :=
  match sub w with
  | some (parent, child) => some [.subRef parent child]
  | none =>
    match w with
    | '|' :: d => (padLiteral d).map (fun a => [.padAbsolute a])
    | '$' :: d => (padLiteral d).map (fun a => [.padRelative a])
    | '@' :: n => if nameOk n then some [.label n] else none
    | '&' :: n => if nameOk n then some [.subLabel n pos] else none
    | '#' :: d =>
      match hexBytes d with
      | some [b] => some [.byte (litOpcode bc false), .byte b]
      | some [h, l] => some [.byte (litOpcode bc true), .byte h, .byte l]
      | _ => none
    | '.' :: n => if nameOk n then some [.zeroPageRef n] else none
    | ';' :: n => if nameOk n then some [.absoluteRef n] else none
    | _ => plainWord bc known w

/-! ### The parser (R127, R128) -/

/-- A macro definition whose body is being read: the position of its first word, its name, the body's items so far. -/
structure OpenMacro where
  start : Nat
  name  : AsmText
  items : List AsmItem
  deriving Repr

/-- Where the parser stands: among items, or between a definition's name and its opening brace. Both inside the definitions
whose bodies are open, innermost first. -/
inductive ParseMode where
  | reading (opened : List OpenMacro)
  | beforeBody (start : Nat) (name : AsmText) (opened : List OpenMacro)
  deriving Repr

/-- A macro definition's first word after `%`: the name, with or without the opening brace behind it. -/
def macroHead (pos : Nat) (n : AsmText) (opened : List OpenMacro) : Option ParseMode :=
  if n.getLast? = some openBrace then
    (if nameOk n.dropLast then some (.reading ({ start := pos, name := n.dropLast, items := [] } :: opened)) else none)
  else if nameOk n then some (.beforeBody pos n opened) else none

/-- Put items where the parser stands: into the innermost open body, or, outside every body, into the output. -/
def placeItems (new : List AsmItem) : List OpenMacro → List AsmItem × List OpenMacro
  | [] => (new, [])
  | m :: outer => ([], { m with items := m.items ++ new } :: outer)

/-- Parse words into items (R128). A macro is known to the words after its closing brace (R127). A source that ends inside a
definition is an error at the innermost unfinished definition's first word. -/
def parse (sub : SubAddrSyntax) (bc : BaseCode) :
    List (Nat × AsmText) → List AsmText → ParseMode → Except AsmError (List AsmItem)
  | [], _, .reading [] => .ok []
  | [], _, .reading (m :: _) => .error (.syntaxError m.start)
  | [], _, .beforeBody start _ _ => .error (.syntaxError start)
  | (pos, w) :: rest, known, .beforeBody start name opened =>
    if w = [openBrace] then parse sub bc rest known (.reading ({ start := start, name := name, items := [] } :: opened))
    else .error (.syntaxError pos)
  | (pos, w) :: rest, known, .reading opened =>
    match w with
    | '%' :: n =>
      match macroHead pos n opened with
      | some mode => parse sub bc rest known mode
      | none => .error (.syntaxError pos)
    | _ =>
      if w = [closeBrace] then
        match opened with
        | [] => .error (.syntaxError pos)
        | m :: outer => do
          let (out, outer) := placeItems [.macroDef m.name m.items] outer
          let more ← parse sub bc rest (m.name :: known) (.reading outer)
          .ok (out ++ more)
      else
        match wordItems sub bc known pos w with
        | some new => do
          let (out, opened) := placeItems new opened
          let more ← parse sub bc rest known (.reading opened)
          .ok (out ++ more)
        | none => .error (.syntaxError pos)

/-! ### Macro expansion (R129, R130) -/

/-- One pass over the items: a definition enters the table, replacing an earlier one of its name (D28); an invocation becomes
a copy of its body. The pass does not look into the copy: calls in it are not expanded, definitions in it not entered. -/
def expandPass : List AsmItem → List (AsmText × List AsmItem) → Except AsmError (List AsmItem)
  | [], _ => .ok []
  | .macroDef name body :: rest, table => expandPass rest ((name, body) :: table)
  | .macroCall name :: rest, table =>
    match table.lookup name with
    | some body => do
      let more ← expandPass rest table
      .ok (body ++ more)
    | none => .error (.undefinedMacro name)
  | i :: rest, table => do
    let more ← expandPass rest table
    .ok (i :: more)

/-- Is the item a macro definition or invocation? -/
def isMacroItem : AsmItem → Bool
  | .macroCall _ | .macroDef _ _ => true
  | .byte _ | .label _ | .subLabel _ _ | .padAbsolute _ | .padRelative _ => false
  | .zeroPageRef _ | .absoluteRef _ | .subRef _ _ => false

/-- Expansion, after which a definition or an invocation still standing is an error (R130). -/
def expand (parsed : List AsmItem) : Except AsmError (List AsmItem) := do
  let items ← expandPass parsed []
  if items.any isMacroItem then .error .internalConsistency else .ok items

/-! ### The resolve pass (R131) -/

/-- The location table (R121): label, optional sub-label, address; the latest binding first. -/
abbrev Locations := List ((AsmText × Option AsmText) × Nat)

/-- The emission width of an item (R131). -/
def AsmItem.width : AsmItem → Nat
  | .byte _ => 1
  | .zeroPageRef _ => 2
  | .absoluteRef _ | .subRef _ _ => 3
  | .label _ | .subLabel _ _ | .padAbsolute _ | .padRelative _ | .macroCall _ | .macroDef _ _ => 0

/-- The cursor after an item (R131, D31): it may reach 0x10000 and not pass it. DESIGN CHOICE (log entry 41): an absolute pad
moves it back from 0x10000 too, and what follows the pad may be written. -/
def moveCursor (i : AsmItem) (cursor : Nat) : Except AsmError Nat :=
  match i with
  | .padAbsolute addr => .ok addr.toNat
  | .padRelative delta => if memSize < cursor + delta.toNat then .error .cursorRange else .ok (cursor + delta.toNat)
  | _ => if memSize < cursor + i.width then .error .cursorRange else .ok (cursor + i.width)

/-- Bind every label and sub-label to the cursor (R121, R131); a sub-label before any label has no parent, an
error at its position (D34). -/
def resolve : List AsmItem → Nat → Option AsmText → Locations → Except AsmError Locations
  | [], _, _, table => .ok table
  | .label name :: rest, cursor, _, table => resolve rest cursor (some name) (((name, none), cursor) :: table)
  | .subLabel _ pos :: _, _, none, _ => .error (.syntaxError pos)
  | .subLabel name _ :: rest, cursor, some parent, table =>
    resolve rest cursor (some parent) (((parent, some name), cursor) :: table)
  | i :: rest, cursor, parent, table => do
    let next ← moveCursor i cursor
    resolve rest next parent table

/-! ### The emit pass (R132 to R134) -/

/-- A LIT2 of a location's address (R122, R124). -/
def addressBytes (bc : BaseCode) (key : AsmText × Option AsmText) (table : Locations) : Except AsmError (List Byte) :=
  match table.lookup key with
  | some a =>
    if a < memSize then .ok [litOpcode bc true, hi8 (BitVec.ofNat 16 a), lo8 (BitVec.ofNat 16 a)]
    else .error .cursorRange
  | none => .error (.undefinedLabel key.1)

/-- The bytes an item emits (R122 to R124, R132, R135). -/
def itemBytes (bc : BaseCode) (table : Locations) : AsmItem → Except AsmError (List Byte)
  | .byte b => .ok [b]
  | .zeroPageRef name =>
    match table.lookup (name, none) with
    | some a =>
      if a < resetPc.toNat then .ok [litOpcode bc false, BitVec.ofNat 8 a] else .error .zeroPageAddressRange
    | none => .error (.undefinedLabel name)
  | .absoluteRef name => addressBytes bc (name, none) table
  | .subRef parent child => addressBytes bc (parent, some child) table
  | .label _ | .subLabel _ _ | .padAbsolute _ | .padRelative _ => .ok []
  | .macroCall _ | .macroDef _ _ => .error .internalConsistency

/-- The image being written: its bytes, and the highest address written (R132). -/
structure AsmImage where
  mem     : Memory
  highest : Option Nat
  deriving DecidableEq, Repr

/-- The higher of an address and the highest so far. -/
def highestOf (a : Nat) : Option Nat → Nat
  | some h => max h a
  | none => a

/-- Write an item's bytes at the cursor: never below 0x0100 (R133) or above 0xFFFF (D31); a later write wins (D30). -/
def writeItem : List Byte → Nat → AsmImage → Except AsmError AsmImage
  | [], _, img => .ok img
  | b :: rest, cursor, img =>
    if cursor < resetPc.toNat then .error .zeroPageWriteViolation
    else if memSize ≤ cursor then .error .cursorRange
    else writeItem rest (cursor + 1)
      { mem := img.mem.write cursor b, highest := some (highestOf cursor img.highest) }

/-- The emit pass (R132). DESIGN CHOICE (log entry 40): an item's address is looked up before its first byte is written, so an
error of the reference comes before one of the write. -/
def emit (bc : BaseCode) (table : Locations) : List AsmItem → Nat → AsmImage → Except AsmError AsmImage
  | [], _, img => .ok img
  | i :: rest, cursor, img => do
    let bytes ← itemBytes bc table i
    let written ← writeItem bytes cursor img
    let next ← moveCursor i cursor
    emit bc table rest next written

/-- The output: 0x0100 through the highest address written, bytes not written 0x00; nothing written, nothing put out
(R134, D29). -/
def AsmImage.output (img : AsmImage) : List Byte :=
  match img.highest with
  | some h => (List.range (h + 1 - resetPc.toNat)).map (fun k => img.mem.read (resetPc.toNat + k))
  | none => []

/-- Assemble a source text into the image `load` takes, or the first error (R128 to R136). DESIGN CHOICE (log entry 40): the
whole source is cut into words before any word is parsed, so a bad comment's error comes before that of an earlier bad word. -/
def assemble (sub : SubAddrSyntax) (bc : BaseCode) (source : AsmText) : Except AsmError (List Byte) := do
  let words ← lex source 0 .between
  let parsed ← parse sub bc words [] (.reading [])
  let items ← expand parsed
  let table ← resolve items resetPc.toNat none []
  let img ← emit bc table items resetPc.toNat { mem := [], highest := none }
  .ok img.output

end Sys2Proof.Machine
end

