-- ==== Sys2Proof/Machine/Session.lean ====
section
/-! DEFINITION. The host's side of the machine: its requests, what each answers, what it observes of a run (R10, R245, R246). -/

namespace Sys2Proof.Machine

/-- How far the boot sequence of R237 has come: reset, then at most one load, then steps. It belongs to the host interface,
not to the state of R30. -/
inductive HostPhase where
  | fresh
  | loaded
  | stepping
  deriving DecidableEq, Repr

/-- The machine and its boot phase. -/
structure Session where
  phase : HostPhase
  core  : State
  deriving DecidableEq, Repr

/-- What the host can ask (R246); it has no other move, in particular none that writes state between steps (D21). -/
inductive HostRequest where
  | reset
  | load (image : List Byte)
  | step
  | readState
  deriving DecidableEq, Repr

/-- The state read-out of R10 and R246: the values of R10's payload, or, of a faulted state, its run state alone, which carries
the fault record (R43, R245, D8). -/
inductive ReadOut where
  | values (pc : Short) (wst rst : Stack) (mem io : Memory) (run : RunState)
  | faulted (kind : Fault) (opcodeAddr : Short)
  deriving DecidableEq, Repr

/-- What a request answers (R246). -/
inductive HostResponse where
  | done
  | refused (why : Refusal)
  | result (r : StepResult)
  | values (r : ReadOut)
  deriving DecidableEq, Repr

/-- What a state read returns (R246), which R10 makes a part of R245's observation: the stacks, `pc`, memory and the I/O page
of a faulted state are not observed (R43, D8). That the read is answered there with the run state is DEDUCED (log entry 39). -/
def State.readOut (s : State) : ReadOut :=
  match s.run with
  | .running | .halted => .values s.pc s.wst s.rst s.mem s.io s.run
  | .faulted kind addr => .faulted kind addr

/-- `reset` (R230, R246). -/
def requestReset (h : Session) : HostResponse × Session :=
  (.done, { phase := .fresh, core := resetCore h.core })

/-- `load(image)` (R235 to R237): once, before the first step, at most 0xFF00 bytes; otherwise it does not run. -/
def requestLoad (image : List Byte) (h : Session) : HostResponse × Session :=
  match h.phase with
  | .fresh =>
    if maxImage < image.length then (.refused .imageTooLong, h)
    else (.done, { phase := .loaded, core := loadImage image h.core })
  | .loaded => (.refused .loadNotAdmitted, h)
  | .stepping => (.refused .loadNotAdmitted, h)

/-- `step` (R246): the machine's step and its `step_result`. -/
def requestStep (h : Session) : HostResponse × Session :=
  match step h.core with
  | .next t => (.result t.stepResult, { phase := .stepping, core := t })
  | .fault kind => (.result (.fault kind), { h with phase := .stepping })
  | .refused why => (.refused why, { h with phase := .stepping })

/-- One transaction of the host with the machine (R10, R246). -/
def hostRequest (q : HostRequest) (h : Session) : HostResponse × Session :=
  match q with
  | .reset => requestReset h
  | .load image => requestLoad image h
  | .step => requestStep h
  | .readState => (.values h.core.readOut, h)

/-- The machine before its first request (R237: the boot sequence begins with reset). -/
def Session.start (params : Params) : Session := { phase := .fresh, core := State.resetWith params }

/-- What the host observes of a run that has ended (R245). -/
inductive Observation where
  | halted (pc : Short) (wst rst : Stack) (mem io : Memory) (events : List Event)
  | faulted (kind : Fault) (opcodeAddr : Short) (events : List Event)
  deriving DecidableEq, Repr

/-- The observation of R245: a halted run shows the final state and the history; a faulted one only its fault record and
the history; a running one is not over. -/
def State.observation (s : State) : Option Observation :=
  match s.run with
  | .running => none
  | .halted => some (.halted s.pc s.wst s.rst s.mem s.io s.events)
  | .faulted kind addr => some (.faulted kind addr s.events)

end Sys2Proof.Machine
end

