-- ==== Sys2Proof/Safety.lean ====
section
/-! DEFINITION. What claims call a legal state, a run, a safe run, and a fault that leaves no trace but itself. -/

namespace Sys2Proof.Machine

/-- The legal states: memory and the I/O page in canonical form inside their spaces (R46, R47), and no stack over the
capacity (R37; D37 for the return stack). -/
def State.wf (s : State) : Prop :=
  s.mem.wf ∧ s.io.wfIo ∧ s.wst.length ≤ s.params.stackCapacity ∧ s.rst.length ≤ s.params.stackCapacity

/-- The zero page holds 0x00 in every byte (R68). -/
def State.zeroPageClear (s : State) : Prop :=
  ∀ a : Short, a.toNat < resetPc.toNat → memRead s a = 0

/-- `n` step requests, one after the other. -/
def runFor (n : Nat) (s : State) : Host.Outcome State Fault Refusal := Host.Core.run Sys2Proof.core n s

/-- No fatal error has ended the run (R45). -/
def State.safe (s : State) : Prop := ∀ kind addr, s.run ≠ .faulted kind addr

/-- The instruction takes the fault with its own address as the record (R201, R205; D36, log entry 14), and the step has
written neither memory, nor the I/O page, nor the return stack, nor the history, and notified no device. -/
def faultsWith (i : Instr) (s : State) (kind : Fault) : Prop :=
  ∃ t, exec i s = .next t ∧ t.run = .faulted kind s.pc ∧ t.mem = s.mem ∧ t.io = s.io ∧ t.rst = s.rst ∧
    t.events = s.events ∧ t.params = s.params ∧ t.replies = s.replies ∧ t.draws = s.draws

end Sys2Proof.Machine

namespace Sys2Proof

open Machine (Fault)

/-- The bytes an instruction takes from the working stack (42_arithmetic.md, 43_device_io.md). -/
def Instr.needs : Instr → Nat
  | .brk | .brk2 | .lit _ | .lit2 _ => 0
  | .inc => 1
  | .inc2 => 2
  | .dei | .dei2 => 1
  | .deo => 2
  | .deo2 => 3
  | .add | .sub => 2
  | .add2 | .sub2 => 4
  | .illegalReturn _ _ _ | .illegalKeep _ _ | .illegalBase _ _ => 0

/-- The bytes an instruction leaves on the working stack in place of those it takes. -/
def Instr.leaves : Instr → Nat
  | .brk | .brk2 => 0
  | .lit _ => 1
  | .lit2 _ => 2
  | .inc => 1
  | .inc2 => 2
  | .dei => 1
  | .dei2 => 2
  | .deo | .deo2 => 0
  | .add | .sub => 1
  | .add2 | .sub2 => 2
  | .illegalReturn _ _ _ | .illegalKeep _ _ | .illegalBase _ _ => 0

/-- The faults an instruction can take, in the order of its rule (R200, R204). -/
def Instr.faultKinds : Instr → List Fault
  | .brk | .brk2 => []
  | .lit _ | .lit2 _ => [.stackOverflow]
  | .inc | .inc2 | .add | .add2 | .sub | .sub2 | .dei => [.stackUnderflow]
  | .dei2 => [.stackUnderflow, .ioPageBounds, .stackOverflow]
  | .deo => [.stackUnderflow, .unknownPort]
  | .deo2 => [.stackUnderflow, .crossDeviceShortWrite, .unknownPort]
  | .illegalReturn _ _ _ | .illegalKeep _ _ => [.unimplementedFeature]
  | .illegalBase _ _ => [.unknownOpcode]

end Sys2Proof
end

