-- ==== Sys2Proof/Certificates/Slice0/Obligations.lean ====
section
/-! DEFINITION. The statements for the provers. -/

open Sys2Proof Sys2Proof.Machine

/-! ## Encoding -/

/-- Opcode-table words written out from R101 decode to their instructions. The bytes of INC, DEI, DEO, ADD and SUB are the
model's presumed `BASE_CODE` (log entry 1). -/
def Obligations.TableWordsDecodeAsListed : Prop :=
  decodeTableWord 8 0b00000000 = some .brk ∧ decodeTableWord 8 0b00100000 = some .brk2 ∧
  decodeTableWord 16 0b0001001010000000 = some (.lit 0x12) ∧
  decodeTableWord 24 0b001101000001001010100000 = some (.lit2 0x1234) ∧
  decodeTableWord 8 0b00000001 = some .inc ∧ decodeTableWord 8 0b00110110 = some .dei2 ∧
  decodeTableWord 8 0b00010111 = some .deo ∧ decodeTableWord 8 0b00111000 = some .add2 ∧
  decodeTableWord 8 0b00011001 = some .sub ∧
  decodeTableWord 8 0b01000001 = some (.illegalReturn false false 1) ∧
  decodeTableWord 8 0b10011000 = some (.illegalKeep false 0x18) ∧
  decodeTableWord 8 0b00111010 = some (.illegalBase true 0x1A)

/-- Decoding an encoded well-formed instruction gives it back, with every operand at every value and whatever bytes
follow, under every valid `BASE_CODE`. -/
def Obligations.DecodeOfEncodeIsInstr : Prop :=
  ∀ (bc : BaseCode), bc.valid → ∀ (i : Instr), i.wellFormed bc = true → ∀ rest : List Byte,
    decode bc (encode bc i ++ rest) = .instr i rest

/-- Every three bytes start a well-formed instruction, whose encoding is the bytes it was read from: no bit of a byte is
dropped and no byte is without a reading. Under a valid `BASE_CODE` it is the only one whose encoding they start with. -/
def Obligations.EncodeOfDecodeIsBytes : Prop :=
  (∀ (bc : BaseCode) (b i1 i2 : Byte), ∃ i rest, decode bc [b, i1, i2] = .instr i rest ∧
    i.wellFormed bc = true ∧ encode bc i ++ rest = [b, i1, i2]) ∧
  (∀ (bc : BaseCode), bc.valid → ∀ (b i1 i2 : Byte) (i j : Instr) (rest rest' : List Byte),
    i.wellFormed bc = true → j.wellFormed bc = true →
    encode bc i ++ rest = [b, i1, i2] → encode bc j ++ rest' = [b, i1, i2] → i = j ∧ rest = rest')

/-- R107: for every mnemonic and valid flag set, encoding and then decoding reproduces the base operation and the flags. -/
def Obligations.MnemonicEncodingRoundTrip : Prop :=
  ∀ (bc : BaseCode), bc.valid → ∀ (m : Mnemonic) (f : FlagSet), validFlags m f = true →
    classify bc (encodeMnemonic bc m f) = .op m f.short ∧
    shortFlag (encodeMnemonic bc m f) = f.short ∧ returnFlag (encodeMnemonic bc m f) = f.ret ∧
    keepFlag (encodeMnemonic bc m f) = (f.keep || m == .lit)

/-- The fourteen admitted bytes and the three fault classes of the default `BASE_CODE`, by their byte ranges, and the
reserved MUL, DIV and SFT among the unassigned. Rests on the presumed base values (log entry 1) and on D6 and D7. -/
def Obligations.OpcodeMapByRange : Prop :=
  (∀ b : Byte, (classify BaseCode.uxn b = .returnFlagSet ↔ (0x40 ≤ b ∧ b ≤ 0x7F) ∨ 0xC0 ≤ b)) ∧
  (∀ b : Byte, (classify BaseCode.uxn b = .keepFlagSet ↔ (0x81 ≤ b ∧ b ≤ 0x9F) ∨ (0xA1 ≤ b ∧ b ≤ 0xBF))) ∧
  (∀ b : Byte, (classify BaseCode.uxn b = .unassignedBase ↔
    b < 0x40 ∧ baseField b ∉ ([0x00, 0x01, 0x16, 0x17, 0x18, 0x19] : List Base))) ∧
  (∀ base ∈ reservedBases, ∀ short, classify BaseCode.uxn (opcodeByte false false short base) = .unassignedBase)

/-! ## The step cycle -/

/-- A running step is the instruction that the bytes at the program counter decode to, with nothing around it; some
instruction always is there, and it is well formed. -/
def Obligations.StepRunsDecodedInstruction : Prop :=
  (∀ (s : State) (i : Instr) (rest : List Byte), s.run = .running →
    decode s.params.baseCode [memRead s s.pc, memRead s (s.pc + 1), memRead s (s.pc + 2)] = .instr i rest →
    step s = exec i s) ∧
  (∀ s : State, ∃ i rest, i.wellFormed s.params.baseCode = true ∧
    decode s.params.baseCode [memRead s s.pc, memRead s (s.pc + 1), memRead s (s.pc + 2)] = .instr i rest)

/-- R143: a step request in a stopped state changes nothing and reports the same result again; only reset leaves it.
The rule is the spec's decision D9. -/
def Obligations.StoppedStepChangesNothing : Prop :=
  (∀ s : State, s.run ≠ .running → step s = .next s) ∧
  (∀ (q : HostRequest) (h : Session), h.core.run ≠ .running → q ≠ .reset →
    (hostRequest q h).2.core.run = h.core.run) ∧
  (∀ h : Session, h.core.run ≠ .running →
    (hostRequest .step h).1 = .result h.core.stepResult ∧ (hostRequest .step h).2.core = h.core)

/-- Every instruction moves `pc` by its own length, mod 2^16 (R32, R91, R144), so a run goes on from 0xFFFF at 0x0000. That
an illegal opcode byte counts as one byte long, with `pc` after it, is log entry 12; the `pc` of a faulted state is D8. -/
def Obligations.ControlFlowIsSequential : Prop :=
  (∀ (i : Instr) (s t : State), exec i s = .next t → t.pc.toNat = (s.pc.toNat + i.size) % 65536) ∧
  (∀ i : Instr, i.size = match i with | .lit _ => 2 | .lit2 _ => 3 | _ => 1)

/-- The step reports `Halt` exactly when it executed BRK or BRK2 (R142; how a fault is reported is D8, and that
0x20 is BRK2 is D5). -/
def Obligations.HaltExactlyOnBrk : Prop :=
  ∀ s t : State, s.run = .running → step s = .next t →
    (t.stepResult = .halt ↔ (fetchInstr s = .brk ∨ fetchInstr s = .brk2))

/-- Every step request is answered by a next state: nothing stops the model (fatal errors are states, D8, log entry 4). -/
def Obligations.EveryStepHasNextState : Prop :=
  ∀ s : State, ∃ t : State, step s = .next t ∧ t.params = s.params

/-! ## BRK -/

/-- R145: BRK halts with `pc` after it, changes nothing else, reports `Halt`, and nothing is fetched after it. -/
def Obligations.BrkHalts : Prop :=
  (∀ bc : BaseCode, encode bc .brk = [0x00]) ∧
  ∀ s : State, ∃ t, exec .brk s = .next t ∧ t = { s with pc := s.pc + 1, run := .halted } ∧
    t.stepResult = .halt ∧ step t = .next t ∧ (s.pc = 0xFFFF → t.pc = 0x0000)

/-- BRK2 halts as BRK does; that 0x20 is admitted is D5. -/
def Obligations.BrkShortFlagHaltsToo : Prop :=
  (∀ bc : BaseCode, encode bc .brk2 = [0x20]) ∧
  ∀ s : State, exec .brk2 s = exec .brk s ∧ exec .brk2 s = .next { s with pc := s.pc + 1, run := .halted }

/-! ## LIT -/

/-- LIT and LIT2 push their immediate and pass it; on a stack without room they fault (the overflow is D2). -/
def Obligations.LitPushesImmediate : Prop :=
  (∀ (imm : Byte) (s : State), s.wst.length < s.params.stackCapacity →
    exec (.lit imm) s = .next { s with pc := s.pc + 2, wst := s.wst ++ [imm] }) ∧
  (∀ (imm : Byte) (s : State), s.wst.length = s.params.stackCapacity → faultsWith (.lit imm) s .stackOverflow) ∧
  (∀ (imm : Short) (s : State), s.wst.length + 2 ≤ s.params.stackCapacity →
    exec (.lit2 imm) s = .next { s with pc := s.pc + 3, wst := s.wst ++ [hi8 imm, lo8 imm] }) ∧
  (∀ (imm : Short) (s : State),
    (s.wst.length = s.params.stackCapacity ∨ s.wst.length + 1 = s.params.stackCapacity) →
    faultsWith (.lit2 imm) s .stackOverflow)

/-- R93: LIT's operand is the byte after the opcode, LIT2's the big-endian short after it, at addresses mod 2^16, taken
whole and pushed at its own width; no other opcode byte looks at what follows it. -/
def Obligations.ImmediateFollowsOpcode : Prop :=
  (∀ s : State, s.run = .running → memRead s s.pc = 0x80 →
    step s = exec (.lit (memRead s (s.pc + 1))) s ∧
    (s.wst.length < s.params.stackCapacity →
      step s = .next { s with pc := s.pc + 2, wst := s.wst ++ [memRead s (s.pc + 1)] })) ∧
  (∀ s : State, s.run = .running → memRead s s.pc = 0xA0 →
    (∃ imm : Short, imm.toNat = (memRead s (s.pc + 1)).toNat * 256 + (memRead s (s.pc + 2)).toNat ∧
      step s = exec (.lit2 imm) s) ∧
    (s.wst.length + 2 ≤ s.params.stackCapacity →
      step s = .next { s with pc := s.pc + 3, wst := s.wst ++ [memRead s (s.pc + 1), memRead s (s.pc + 2)] })) ∧
  (∀ (bc : BaseCode) (b : Byte), b ≠ 0x80 → b ≠ 0xA0 → ∀ i1 i2 j1 j2 : Byte,
    decodeWindow bc b i1 i2 = decodeWindow bc b j1 j2)

/-! ## Arithmetic -/

/-- INC and INC2 add one to the top byte or short in place; on too short a stack they fault (D4). -/
def Obligations.IncrementsTopInPlace : Prop :=
  (∀ (s : State) (r : Stack) (x : Byte), s.wst = r ++ [x] →
    exec .inc s = .next { s with pc := s.pc + 1, wst := r ++ [x + 1] }) ∧
  (∀ s : State, s.wst = [] → faultsWith .inc s .stackUnderflow) ∧
  (∀ (s : State) (r : Stack) (x : Short), s.wst = r ++ [hi8 x, lo8 x] →
    exec .inc2 s = .next { s with pc := s.pc + 1, wst := r ++ [hi8 (x + 1), lo8 (x + 1)] }) ∧
  (∀ s : State, s.wst.length < 2 → faultsWith .inc2 s .stackUnderflow)

/-- R161: the first popped is the right operand, the second the left; SUB is the lower value minus the top value. Nothing
but `pc` and the working stack changes. -/
def Obligations.FirstPoppedIsRightOperand : Prop :=
  (∀ (s : State) (r : Stack) (a b : Byte), s.wst.length ≤ s.params.stackCapacity → s.wst = r ++ [a, b] →
    exec .add s = .next { s with pc := s.pc + 1, wst := r ++ [a + b] } ∧
    exec .sub s = .next { s with pc := s.pc + 1, wst := r ++ [a - b] }) ∧
  (∀ (s : State) (r : Stack) (a b : Short), s.wst.length ≤ s.params.stackCapacity →
    s.wst = r ++ [hi8 a, lo8 a, hi8 b, lo8 b] →
    exec .add2 s = .next { s with pc := s.pc + 1, wst := r ++ [hi8 (a + b), lo8 (a + b)] } ∧
    exec .sub2 s = .next { s with pc := s.pc + 1, wst := r ++ [hi8 (a - b), lo8 (a - b)] })

/-- Arithmetic is unsigned and wraps at the mode's width, never faults on its values and records nothing (R160). -/
def Obligations.ArithmeticWrapsAtWidth : Prop :=
  (∀ (s : State) (r : Stack) (a b : Byte), s.wst.length ≤ s.params.stackCapacity → s.wst = r ++ [a, b] →
    ∃ sum diff succ : Byte,
      exec .add s = .next { s with pc := s.pc + 1, wst := r ++ [sum] } ∧ sum.toNat = (a.toNat + b.toNat) % 256 ∧
      exec .sub s = .next { s with pc := s.pc + 1, wst := r ++ [diff] } ∧ diff.toNat = (a.toNat + 256 - b.toNat) % 256 ∧
      exec .inc s = .next { s with pc := s.pc + 1, wst := r ++ [a, succ] } ∧ succ.toNat = (b.toNat + 1) % 256) ∧
  (∀ (s : State) (r : Stack) (a1 a0 b1 b0 : Byte), s.wst.length ≤ s.params.stackCapacity → s.wst = r ++ [a1, a0, b1, b0] →
    ∃ s1 s0 d1 d0 i1 i0 : Byte,
      exec .add2 s = .next { s with pc := s.pc + 1, wst := r ++ [s1, s0] } ∧
      s1.toNat * 256 + s0.toNat = ((a1.toNat * 256 + a0.toNat) + (b1.toNat * 256 + b0.toNat)) % 65536 ∧
      exec .sub2 s = .next { s with pc := s.pc + 1, wst := r ++ [d1, d0] } ∧
      d1.toNat * 256 + d0.toNat = ((a1.toNat * 256 + a0.toNat) + 65536 - (b1.toNat * 256 + b0.toNat)) % 65536 ∧
      exec .inc2 s = .next { s with pc := s.pc + 1, wst := r ++ [a1, a0, i1, i0] } ∧
      i1.toNat * 256 + i0.toNat = (b1.toNat * 256 + b0.toNat + 1) % 65536)

/-! ## Device I/O -/

/-- DEO pops the port and then the byte, writes it at the port, notifies the device of the port's slot and no other, and
records the event with its answer. With no device the answer is `Ok`; a listed reply gives its answer and, under
`own_slot_any`, the slot's bytes; with none listed the reply is a free value, which sees the new byte in its view. On
`UnknownPort` the step faults with the write standing (D24, log entry 17). -/
def Obligations.DeoWritesPortAndNotifies : Prop :=
  ∀ (s : State) (r : Stack) (v p : Byte), s.wst = r ++ [v, p] →
    (slotOf p ∉ s.params.attached → ∃ io : Memory,
      exec .deo s = .next { s with pc := s.pc + 1, wst := r, io := io, events := s.events ++ [.writeByte (slotOf p) p v .ok] } ∧
      ∀ q : Byte, io.read q.toNat = if q = p then v else ioByte s q) ∧
    (∀ (d : DeviceReply) (ds : List DeviceReply), slotOf p ∈ s.params.attached → s.replies = d :: ds → ∃ io : Memory,
      exec .deo s = .next { s with
        pc := s.pc + 1, wst := r, io := io, events := s.events ++ [.writeByte (slotOf p) p v d.result], replies := ds,
        run := match d.result with | .ok => s.run | .unknownPort => .faulted .unknownPort s.pc } ∧
      ∀ q : Byte, io.read q.toNat =
        if s.params.latch = .ownSlotAny ∧ slotOf q = slotOf p then d.latched[(portIn q).toNat]'(portIn q).isLt
        else if q = p then v else ioByte s q) ∧
    (slotOf p ∈ s.params.attached → s.replies = [] → ∃ (io view : Memory) (d : DeviceReply),
      d = Config.freeReply s.draws { ioView := view, memView := s.mem, port := p, value := .byte v } ∧
      (∀ q : Byte, view.read q.toNat = if q = p then v else ioByte s q) ∧
      exec .deo s = .next { s with
        pc := s.pc + 1, wst := r, io := io, events := s.events ++ [.writeByte (slotOf p) p v d.result], draws := s.draws + 1,
        run := match d.result with | .ok => s.run | .unknownPort => .faulted .unknownPort s.pc } ∧
      ∀ q : Byte, io.read q.toNat =
        if s.params.latch = .ownSlotAny ∧ slotOf q = slotOf p then d.latched[(portIn q).toNat]'(portIn q).isLt
        else if q = p then v else ioByte s q)

/-- DEO2 pops the port byte and then the short, and, off the last port of a slot, writes the high byte at the port and the
low byte after it (D17), with one notification for the whole short; the answers are as DEO's, and on `UnknownPort` the write stands (D24, log entry
17). -/
def Obligations.DeoShortWritesTwoPorts : Prop :=
  ∀ (s : State) (r : Stack) (v : Short) (p : Byte), s.wst = r ++ [hi8 v, lo8 v, p] → portIn p ≠ 0xF →
    (slotOf p ∉ s.params.attached → ∃ io : Memory,
      exec .deo2 s = .next { s with pc := s.pc + 1, wst := r, io := io, events := s.events ++ [.writeShort (slotOf p) p v .ok] } ∧
      ∀ q : Byte, io.read q.toNat =
        if q.toNat = p.toNat then hi8 v else if q.toNat = p.toNat + 1 then lo8 v else ioByte s q) ∧
    (∀ (d : DeviceReply) (ds : List DeviceReply), slotOf p ∈ s.params.attached → s.replies = d :: ds → ∃ io : Memory,
      exec .deo2 s = .next { s with
        pc := s.pc + 1, wst := r, io := io, events := s.events ++ [.writeShort (slotOf p) p v d.result], replies := ds,
        run := match d.result with | .ok => s.run | .unknownPort => .faulted .unknownPort s.pc } ∧
      ∀ q : Byte, io.read q.toNat =
        if s.params.latch = .ownSlotAny ∧ slotOf q = slotOf p then d.latched[(portIn q).toNat]'(portIn q).isLt
        else if q.toNat = p.toNat then hi8 v else if q.toNat = p.toNat + 1 then lo8 v else ioByte s q) ∧
    (slotOf p ∈ s.params.attached → s.replies = [] → ∃ (io view : Memory) (d : DeviceReply),
      d = Config.freeReply s.draws { ioView := view, memView := s.mem, port := p, value := .short v } ∧
      (∀ q : Byte, view.read q.toNat =
        if q.toNat = p.toNat then hi8 v else if q.toNat = p.toNat + 1 then lo8 v else ioByte s q) ∧
      exec .deo2 s = .next { s with
        pc := s.pc + 1, wst := r, io := io, events := s.events ++ [.writeShort (slotOf p) p v d.result], draws := s.draws + 1,
        run := match d.result with | .ok => s.run | .unknownPort => .faulted .unknownPort s.pc } ∧
      ∀ q : Byte, io.read q.toNat =
        if s.params.latch = .ownSlotAny ∧ slotOf q = slotOf p then d.latched[(portIn q).toNat]'(portIn q).isLt
        else if q.toNat = p.toNat then hi8 v else if q.toNat = p.toNat + 1 then lo8 v else ioByte s q)

/-- A short write at the last port of a slot faults before any byte is written and notifies nobody (D15). -/
def Obligations.CrossingShortWriteFaults : Prop :=
  ∀ (s : State) (r : Stack) (v : Short) (p : Byte), s.wst = r ++ [hi8 v, lo8 v, p] → p.toNat % 16 = 15 →
    faultsWith .deo2 s .crossDeviceShortWrite

/-- DEI pops the port and pushes the I/O page's byte there; it notifies nobody and changes nothing else. -/
def Obligations.DeiPushesPortByte : Prop :=
  ∀ (s : State) (r : Stack) (p : Byte), s.wst.length ≤ s.params.stackCapacity → s.wst = r ++ [p] →
    exec .dei s = .next { s with pc := s.pc + 1, wst := r ++ [ioByte s p] }

/-- DEI2 pops the port byte and pushes two bytes of the I/O page, across a slot boundary too; port 0xFF faults before the
push, and a stack without room faults (D2, D16, D17). -/
def Obligations.DeiShortPushesTwoPortBytes : Prop :=
  (∀ (s : State) (r : Stack) (p q : Byte), s.wst.length < s.params.stackCapacity → s.wst = r ++ [p] →
    q.toNat = p.toNat + 1 →
    exec .dei2 s = .next { s with pc := s.pc + 1, wst := r ++ [ioByte s p, ioByte s q] }) ∧
  (∀ (s : State) (r : Stack), s.wst = r ++ [0xFF] → faultsWith .dei2 s .ioPageBounds) ∧
  (∀ (s : State) (r : Stack) (p : Byte), s.wst = r ++ [p] → p ≠ 0xFF →
    s.wst.length = s.params.stackCapacity → faultsWith .dei2 s .stackOverflow)

/-- R77: a read of the I/O page notifies no device and changes no state; the instructions that read it change only the
stack, `pc` and, where they fault, `run`. -/
def Obligations.PortReadsNotifyNobody : Prop :=
  (∀ (p : Byte) (s : State), (∃ v, ioRead p s = .ok v s) ∧
    ((∃ v, ioRead2 p s = .ok v s) ∨ ∃ kind, ioRead2 p s = .raise kind s)) ∧
  ∀ (i : Instr), i = .dei ∨ i = .dei2 → ∀ s t : State, exec i s = .next t →
    ∃ (x : Stack) (run : RunState), t = { s with pc := s.pc + 1, wst := x, run := run }

/-- Under `DEVICE_LATCH = none` (D11), a DEI of a port after a DEO to it, from any state with the I/O page the DEO left, reads
the byte written, whatever device is there, and a DEI2 after a DEO2 reads the short (R240; the order of its bytes is D17). That
the write stands in a state faulted by `UnknownPort` too is D24 (log entry 17), and that an empty slot changes nothing D12 (log
entry 7). -/
def Obligations.ReadAfterWriteGivesValue : Prop :=
  (∀ (s t : State) (r : Stack) (v p : Byte), s.params.latch = .none → s.wst = r ++ [v, p] → exec .deo s = .next t →
    ioByte t p = v ∧
    ∀ (u : State) (x : Stack), u.io = t.io → u.wst = x ++ [p] → u.wst.length ≤ u.params.stackCapacity →
      exec .dei u = .next { u with pc := u.pc + 1, wst := x ++ [v] }) ∧
  (∀ (s t : State) (r : Stack) (v : Short) (p : Byte), s.params.latch = .none → s.wst = r ++ [hi8 v, lo8 v, p] →
    portIn p ≠ 0xF → exec .deo2 s = .next t →
    ∀ (u : State) (x : Stack), u.io = t.io → u.wst = x ++ [p] → u.wst.length < u.params.stackCapacity →
      exec .dei2 u = .next { u with pc := u.pc + 1, wst := x ++ [hi8 v, lo8 v] })

/-- A bound on what a write to a port does: no port of another slot changes (R72, R73, R78 with D11; for DEO2 at a slot's last
port D15, log entry 17), the event, if there is one, names the slot that is the port's high nibble (R70), and a slot without a
device takes no reply (D12, log entry 7). That an attached device is notified is DeoWritesPortAndNotifies and
DeoShortWritesTwoPorts. -/
def Obligations.WritesStayInTheirSlot : Prop :=
  ∀ (i : Instr), i = .deo ∨ i = .deo2 → ∀ (s t : State) (r : Stack) (p : Byte), s.wst = r ++ [p] → exec i s = .next t →
    (∀ q : Byte, q.toNat / 16 ≠ p.toNat / 16 → ioByte t q = ioByte s q) ∧
    (∀ e ∈ t.events.drop s.events.length,
      match e with
      | .writeByte slot port _ _ => port = p ∧ slot.toNat = p.toNat / 16
      | .writeShort slot port _ _ => port = p ∧ slot.toNat = p.toNat / 16) ∧
    (slotOf p ∉ s.params.attached → t.replies = s.replies ∧ t.draws = s.draws)

/-! ## Byte order and the stack primitives -/

/-- R63: a short is split big-endian in memory (LIT2's operand, an assembled address), on the stacks and in the I/O page.
The I/O page's order is D17, the pop's D3. The clause on writes takes `DEVICE_LATCH = none` (D11) and covers the state a write
leaves that ends in `UnknownPort`, where that both bytes stand is D24 (log entry 17), and an empty slot, D12 (log entry 7). -/
def Obligations.ShortsAreBigEndian : Prop :=
  (∀ (s : State) (imm : Short), fetchInstr s = .lit2 imm →
    imm = memRead2 s (s.pc + 1) ∧ imm.toNat = (memRead s (s.pc + 1)).toNat * 256 + (memRead s (s.pc + 2)).toNat) ∧
  (∀ (bc : BaseCode) (key : AsmText × Option AsmText) (table : Locations) (a : Nat), table.lookup key = some a →
    a < memSize → ∃ hi lo : Byte, a = hi.toNat * 256 + lo.toNat ∧
      addressBytes bc key table = .ok [encodeMnemonic bc .lit { short := true, keep := false, ret := false }, hi, lo]) ∧
  (∀ (i : StackId) (v : Short) (s : State), (s.stack i).length + 2 ≤ s.params.stackCapacity →
    ∃ hi lo : Byte, v.toNat = hi.toNat * 256 + lo.toNat ∧ push2 i v s = .ok () (s.setStack i (s.stack i ++ [hi, lo]))) ∧
  (∀ (i : StackId) (s : State) (r : Stack) (hi lo : Byte), s.stack i = r ++ [hi, lo] →
    ∃ v : Short, v.toNat = hi.toNat * 256 + lo.toNat ∧ pop2 i s = .ok v (s.setStack i r)) ∧
  (∀ (s t : State) (p q : Byte) (v : Short), q.toNat = p.toNat + 1 → s.params.latch = .none →
    (ioWrite2 p v s = .ok () t ∨ ioWrite2 p v s = .raise .unknownPort t) →
    v.toNat = (ioByte t p).toNat * 256 + (ioByte t q).toNat) ∧
  (∀ (s : State) (p q : Byte), q.toNat = p.toNat + 1 →
    ∃ v : Short, ioRead2 p s = .ok v s ∧ v.toNat = (ioByte s p).toNat * 256 + (ioByte s q).toNat)

/-- A pop takes the last byte and nothing else; on an empty stack it is a fatal underflow, which ends the step wherever in
the instruction the pop stands (R39): nothing later runs. That what came before stands is D8 and D25 (log entries 4, 19), and
that the record is the opcode's address is D36 (log entry 14). -/
def Obligations.PopTakesTheLastByte : Prop :=
  (∀ (i : StackId) (s : State) (r : Stack) (b : Byte), s.stack i = r ++ [b] → pop i s = .ok b (s.setStack i r)) ∧
  (∀ (i : StackId) (s : State), s.stack i = [] → pop i s = .raise .stackUnderflow s) ∧
  (∀ (i : StackId) (s u : State) (earlier : State → Micro Unit) (later : Byte → State → Micro Unit),
    earlier (advance 1 s) = .ok () u → u.stack i = [] →
    runLines (fun t => (earlier t).andThen fun _ v => (pop i v).andThen later) s =
      .next { u with run := .faulted .stackUnderflow s.pc })

/-- A two-byte pop undoes a two-byte push on either stack (R41, R42; the pop order is D3). -/
def Obligations.PopUndoesPush : Prop :=
  (∀ (i : StackId) (b : Byte) (s t : State), push i b s = .ok () t → pop i t = .ok b s) ∧
  (∀ (i : StackId) (v : Short) (s t : State), push2 i v s = .ok () t → pop2 i t = .ok v s) ∧
  (∀ (i : StackId) (v : Short) (s : State), (s.stack i).length + 1 = s.params.stackCapacity →
    ∃ t, push2 i v s = .raise .stackOverflow t)

/-! ## Fatal errors -/

/-- An instruction that finds fewer bytes than it takes faults with `StackUnderflow`, before any bus access and so before
any other fault it could take (R39, R204; INC's case is D4). -/
def Obligations.TooFewBytesUnderflow : Prop :=
  ∀ (i : Instr) (s : State), s.wst.length < i.needs → faultsWith i s .stackUnderflow

/-- An illegal opcode byte ends the step at the decode with its fault: the return flag first, then keep on a base other
than 0, then a base no operation has (R100; the order is D6, the kind of the last D7). The fetch has moved `pc` past the byte
(R140; that this is the `pc` of the faulted state is log entry 12), whose address is the record (D36). -/
def Obligations.IllegalOpcodesFault : Prop :=
  (∀ (keep short : Bool) (base : Base) (s : State), exec (.illegalReturn keep short base) s =
    .next { s with pc := s.pc + 1, run := .faulted .unimplementedFeature s.pc }) ∧
  (∀ (short : Bool) (base : Base) (s : State), exec (.illegalKeep short base) s =
    .next { s with pc := s.pc + 1, run := .faulted .unimplementedFeature s.pc }) ∧
  (∀ (short : Bool) (base : Base) (s : State), exec (.illegalBase short base) s =
    .next { s with pc := s.pc + 1, run := .faulted .unknownOpcode s.pc }) ∧
  (∀ s : State, s.run = .running → (memRead s s.pc).getLsbD 6 = true →
    step s = .next { s with pc := s.pc + 1, run := .faulted .unimplementedFeature s.pc }) ∧
  (∀ s : State, s.run = .running → (memRead s s.pc).getLsbD 6 = false → (memRead s s.pc).getLsbD 7 = true →
    (memRead s s.pc).toNat % 32 ≠ 0 →
    step s = .next { s with pc := s.pc + 1, run := .faulted .unimplementedFeature s.pc }) ∧
  (∀ s : State, s.run = .running → (memRead s s.pc).getLsbD 6 = false → (memRead s s.pc).getLsbD 7 = false →
    baseField (memRead s s.pc) ∉ s.params.baseCode.assigned →
    step s = .next { s with pc := s.pc + 1, run := .faulted .unknownOpcode s.pc })

/-- A step that ends in a fault records the address of its own opcode byte, and a kind its instruction can raise; no
instruction takes any other (R200, R201, R204; the record's address is D36). -/
def Obligations.FaultsAreTheInstructionsOwn : Prop :=
  ∀ (s t : State), s.run = .running → s.wst.length ≤ s.params.stackCapacity → step s = .next t →
    ∀ (kind : Fault) (a : Short), t.run = .faulted kind a → a = s.pc ∧ kind ∈ (fetchInstr s).faultKinds

/-- With no device in any slot, no step takes `UnknownPort` (R74, D12). -/
def Obligations.NoDeviceNoUnknownPort : Prop :=
  ∀ (s t : State), s.params.attached = [] → s.run = .running → step s = .next t →
    ∀ a : Short, t.run ≠ .faulted .unknownPort a

/-- A running step is safe when its instruction is legal, its operands are there, its result has room, its port is in
range and the slot written to has no device or one that answers `Ok`. That BRK2 is legal is D5 (log entry 20), that a write
to an empty slot is answered `Ok` D12 (log entry 7), that a short read may cross slots D16 (log entry 17). -/
def Obligations.SuppliedStepIsSafe : Prop :=
  ∀ (s : State), s.run = .running → s.wst.length ≤ s.params.stackCapacity →
    (fetchInstr s).needs ≤ s.wst.length →
    s.wst.length - (fetchInstr s).needs + (fetchInstr s).leaves ≤ s.params.stackCapacity →
    (match fetchInstr s with
      | .illegalReturn _ _ _ | .illegalKeep _ _ | .illegalBase _ _ => False
      | .dei2 => s.wst.getLast? ≠ some 0xFF
      | .deo => ∀ p, s.wst.getLast? = some p →
          slotOf p ∉ s.params.attached ∨ ∃ d ds, s.replies = d :: ds ∧ d.result = .ok
      | .deo2 => ∀ p, s.wst.getLast? = some p → portIn p ≠ 0xF ∧
          (slotOf p ∉ s.params.attached ∨ ∃ d ds, s.replies = d :: ds ∧ d.result = .ok)
      | _ => True) →
    ∃ t, step s = .next t ∧ t.safe ∧
      t.wst.length = s.wst.length - (fetchInstr s).needs + (fetchInstr s).leaves

/-! ## The whole machine -/

/-- Every step keeps the legal states: canonical memory and I/O page, and no stack over its capacity. -/
def Obligations.StepKeepsWellFormed : Prop :=
  ∀ s t : State, s.wf → step s = .next t → t.wf

/-- The state after reset is legal, whatever the parameters. -/
def Obligations.ResetIsWellFormed : Prop :=
  State.reset.wf ∧ ∀ s : State, (resetCore s).wf

/-- Every transaction of the host keeps the legal states. -/
def Obligations.HostKeepsWellFormed : Prop :=
  ∀ (q : HostRequest) (h : Session), h.core.wf → (hostRequest q h).2.core.wf

/-- R10, R43, R245, R246: a state read changes nothing; it answers a running or halted state with the values of R10's payload,
and a faulted one with its run state, the fault record, alone (D8; log entries 14 and 39). So of a run that is over it tells
no more than the observation does: two such runs that show the same read the same. -/
def Obligations.StateReadShowsWhatIsObserved : Prop :=
  (∀ h : Session, (hostRequest .readState h).2 = h) ∧
  (∀ h : Session, h.core.run = .running ∨ h.core.run = .halted →
    (hostRequest .readState h).1 =
      .values (.values h.core.pc h.core.wst h.core.rst h.core.mem h.core.io h.core.run)) ∧
  (∀ (h : Session) (kind : Fault) (addr : Short), h.core.run = .faulted kind addr →
    (hostRequest .readState h).1 = .values (.faulted kind addr)) ∧
  (∀ h k : Session, h.core.run ≠ .running → h.core.observation = k.core.observation →
    (hostRequest .readState h).1 = (hostRequest .readState k).1)

/-- R65: no step writes memory, and so no run does. -/
def Obligations.MemoryIsNotWritten : Prop :=
  (∀ (i : Instr) (s t : State), exec i s = .next t → t.mem = s.mem) ∧
  (∀ (n : Nat) (s t : State), runFor n s = .next t → t.mem = s.mem)

/-- No instruction, no step and no run writes the return stack or the parameters; so the return stack is empty for the whole
of every run of every loaded image (R36). -/
def Obligations.ReturnStackIsReserved : Prop :=
  (∀ (i : Instr) (s t : State), exec i s = .next t → t.rst = s.rst ∧ t.params = s.params) ∧
  (∀ s t : State, step s = .next t → t.rst = s.rst ∧ t.params = s.params) ∧
  (∀ (n : Nat) (s t : State), runFor n s = .next t → t.rst = s.rst ∧ t.params = s.params) ∧
  (∀ (n : Nat) (image : List Byte) (s t : State), runFor n (loadImage image (resetCore s)) = .next t →
    t.rst = [] ∧ t.params = s.params)

/-- Every instruction but DEO and DEO2 changes at most `pc`, the working stack and the run state: it writes no byte of memory
or of the I/O page, notifies no device and leaves no event. The `pc` after an illegal opcode byte is log entry 12. -/
def Obligations.OtherInstructionsChangeOnlyPcStackAndRun : Prop :=
  ∀ (i : Instr) (s t : State), i ≠ .deo → i ≠ .deo2 → exec i s = .next t →
    ∃ (x : Stack) (run : RunState), t = { s with pc := s.pc + BitVec.ofNat 16 i.size, wst := x, run := run }

/-- The history only grows, by at most one event a step, and a step that takes a device's reply takes just one, the next
listed, or draws one free reply when none is listed (R75, R85; log entry 5). -/
def Obligations.HistoryGrowsByNotifications : Prop :=
  ∀ s t : State, step s = .next t →
    ∃ (new : List Event) (used : List DeviceReply), t.events = s.events ++ new ∧ new.length ≤ 1 ∧
      s.replies = used ++ t.replies ∧ used.length + (t.draws - s.draws) ≤ new.length ∧ s.draws ≤ t.draws ∧
      (t.draws ≠ s.draws → s.replies = [])

/-- The history is no state: no step depends on it (R85, D38). Two machines that differ in their pasts go on alike. -/
def Obligations.HistoryIsNotRead : Prop :=
  ∀ (s t : State) (past : List Event), step s = .next t →
    ∃ new : List Event, t.events = s.events ++ new ∧
      step { s with events := past } = .next { t with events := past ++ new }

/-- Memory is read in two ways only, the fetch of the opcode and LIT's operand: two states that agree on those bytes step
alike, whatever the rest of memory holds (R61). Where the step asks a device for a reply, the reply is a listed one: a free
reply may depend on the memory the device is shown. -/
def Obligations.StepReadsOnlyItsOwnBytes : Prop :=
  ∀ (s t : State) (m : Memory), s.run = .running →
    (fetchInstr s = .deo ∨ fetchInstr s = .deo2 →
      ∀ p, s.wst.getLast? = some p → slotOf p ∈ s.params.attached → s.replies ≠ []) →
    (∀ k : Nat, k < (fetchInstr s).size →
      m.read (s.pc + BitVec.ofNat 16 k).toNat = memRead s (s.pc + BitVec.ofNat 16 k)) →
    step s = .next t → step { s with mem := m } = .next { t with mem := m }

/-- The return stack is not read either: a step is the same whatever it holds (R36, R44). -/
def Obligations.ReturnStackIsNotRead : Prop :=
  ∀ (s t : State) (x : Stack), step s = .next t → step { s with rst := x } = .next { t with rst := x }

/-- Every run whose zero page is clear comes to a stop, within as many steps as there are bytes from `pc` to the top of
memory, and one more. -/
def Obligations.RunsStopAtTheZeroPage : Prop :=
  ∀ s : State, s.zeroPageClear →
    ∃ n t, n ≤ 65537 - s.pc.toNat ∧ runFor n s = .next t ∧ t.run ≠ .running

/-- Every run from reset and load ends within 65,281 steps, whatever the image, the devices and the base codes (R147). It
rests on the zero bytes of memory after reset, D10 (log entry 9). -/
def Obligations.LoadedRunsTerminate : Prop :=
  ∀ (s : State) (image : List Byte), image.length ≤ maxImage →
    ∃ n t, n ≤ 65281 ∧ runFor n (loadImage image (resetCore s)) = .next t ∧ t.run ≠ .running

/-! ## Reset, load and the host -/

/-- Reset leaves every state element at its reset value (R230; the zero bytes are D10, `Running` D9, the empty history
D38), keeps the parameters, and the next step fetches from 0x0100 (R231). -/
def Obligations.ResetValues : Prop :=
  ∀ s : State, (resetCore s).pc = 0x0100 ∧ (resetCore s).wst = [] ∧ (resetCore s).rst = [] ∧
    (∀ a : Short, memRead (resetCore s) a = 0x00) ∧ (∀ p : Byte, ioByte (resetCore s) p = 0x00) ∧
    (resetCore s).run = .running ∧ (resetCore s).events = [] ∧ (resetCore s).params = s.params ∧
    State.reset = resetCore State.reset

/-- The image stands verbatim from 0x0100 on, and every other byte keeps its reset value (R235), which is 0x00 by D10 (log
entry 9). -/
def Obligations.LoadPlacesImageVerbatim : Prop :=
  ∀ (s : State) (image : List Byte), image.length ≤ maxImage →
    (∀ (k : Nat) (hk : k < image.length), memRead (loadImage image (resetCore s)) (BitVec.ofNat 16 (0x0100 + k)) = image[k]) ∧
    (∀ a : Short, (a.toNat < 0x0100 ∨ 0x0100 + image.length ≤ a.toNat) →
      memRead (loadImage image (resetCore s)) a = 0x00) ∧
    loadImage image (resetCore s) = { resetCore s with mem := (loadImage image (resetCore s)).mem }

/-- R231: the first step after reset and load fetches from 0x0100, whatever the image; where the image begins with an
instruction's encoding, that instruction runs. -/
def Obligations.FirstFetchIsAtTheResetVector : Prop :=
  (∀ (s : State) (image : List Byte),
    (loadImage image (resetCore s)).pc = 0x0100 ∧
    step (loadImage image (resetCore s)) =
      exec (decodeWindow s.params.baseCode (memRead (loadImage image (resetCore s)) 0x0100)
        (memRead (loadImage image (resetCore s)) 0x0101) (memRead (loadImage image (resetCore s)) 0x0102))
        (loadImage image (resetCore s))) ∧
  (∀ (s : State) (i : Instr) (rest : List Byte), s.params.baseCode.valid → i.wellFormed s.params.baseCode = true →
    (encode s.params.baseCode i ++ rest).length ≤ maxImage →
    step (loadImage (encode s.params.baseCode i ++ rest) (resetCore s)) =
      exec i (loadImage (encode s.params.baseCode i ++ rest) (resetCore s)))

/-- The host loads once, before the first step, at most 0xFF00 bytes; any other load is refused and does not run (R236,
R237; D22). -/
def Obligations.LoadOnceBeforeTheFirstStep : Prop :=
  (∀ (image : List Byte) (h : Session), h.phase = .fresh → image.length ≤ maxImage →
    hostRequest (.load image) h = (.done, { phase := .loaded, core := loadImage image h.core })) ∧
  (∀ (image : List Byte) (h : Session), h.phase = .fresh → maxImage < image.length →
    hostRequest (.load image) h = (.refused .imageTooLong, h)) ∧
  (∀ (image : List Byte) (h : Session), h.phase ≠ .fresh →
    hostRequest (.load image) h = (.refused .loadNotAdmitted, h)) ∧
  (∀ h : Session, (hostRequest .step h).2.phase = .stepping) ∧
  (∀ h : Session, (hostRequest .reset h).2.phase = .fresh)

/-- R247: two runs of one image from reset, whatever the machines held before, go the same way, given the same
parameters and the same device replies. -/
def Obligations.NoStateSurvivesReset : Prop :=
  ∀ (s s' : State) (image : List Byte) (n : Nat), s.params = s'.params → s.replies = s'.replies → s.draws = s'.draws →
    runFor n (loadImage image (resetCore s)) = runFor n (loadImage image (resetCore s'))

/-! ## The toolchain -/

/-- Every image the assembler produces fits: the machine's `load` takes it (R131, R236; D31). -/
def Obligations.AssembledImageLoads : Prop :=
  ∀ (sub : SubAddrSyntax) (bc : BaseCode) (source : AsmText) (image : List Byte), assemble sub bc source = .ok image →
    image.length ≤ maxImage ∧
    ∀ h : Session, h.phase = .fresh → (hostRequest (.load image) h).1 = .done

/-- A byte written at a cursor below 0x0100 is a zero-page violation, and the emit pass ends there; an item that writes
nothing, a pad or a label, is none, wherever it stands (R133). That the cursor may reach 0x10000, by a pad too, is D31; that
labels and pads may stand there, and an absolute pad lead back from there, is the model's choice (log entry 41). -/
def Obligations.ZeroPageIsNeverWritten : Prop :=
  (∀ (bc : BaseCode) (table : Locations) (i : AsmItem) (rest : List AsmItem) (b : Byte) (bs : List Byte) (cursor : Nat)
    (img : AsmImage), cursor < 0x0100 → itemBytes bc table i = .ok (b :: bs) →
    emit bc table (i :: rest) cursor img = .error .zeroPageWriteViolation) ∧
  (∀ (bc : BaseCode) (table : Locations) (rest : List AsmItem) (name : AsmText) (cursor : Nat) (img : AsmImage),
    cursor ≤ 0x10000 →
    emit bc table (.label name :: rest) cursor img = emit bc table rest cursor img ∧
    (∀ pos : Nat, emit bc table (.subLabel name pos :: rest) cursor img = emit bc table rest cursor img) ∧
    (∀ addr : Short, emit bc table (.padAbsolute addr :: rest) cursor img = emit bc table rest addr.toNat img) ∧
    (∀ delta : Short, cursor + delta.toNat ≤ 0x10000 →
      emit bc table (.padRelative delta :: rest) cursor img = emit bc table rest (cursor + delta.toNat) img))

/-- The lower-case hexadecimal digit of a value. -/
def Sys2Proof.Machine.hexChar (d : BitVec 4) : Char :=
  Char.ofNat (if d.toNat < 10 then 48 + d.toNat else 87 + d.toNat)

/-- Bytes written out as hexadecimal digits, high nibble first, with no separators. -/
def Sys2Proof.Machine.hexText : List Byte → AsmText
  | [] => []
  | b :: rest => hexChar (b.extractLsb' 4 4) :: hexChar (b.extractLsb' 0 4) :: hexText rest

/-- Any bytes that fit, written as a run of digits, assemble to themselves (R119, R132, R134; the empty image is
D29, and the cursor at 0x10000 after the longest one D31). -/
def Obligations.RawBytesAssembleToThemselves : Prop :=
  ∀ (bc : BaseCode) (bytes : List Byte), bytes.length ≤ maxImage →
    assemble (fun _ => none) bc (hexText bytes) = .ok bytes
end

