-- ==== Sys2Proof/Laws/Memory.lean ====
section
/-! SUPPORT. Memory: what a read after writes gives, and that every operation keeps the canonical form. -/

namespace Sys2Proof.Machine

namespace Memory

@[simp] theorem read_nil (a : Nat) : Memory.read [] a = unlistedByte := rfl

theorem read_cons (c : Host.Cell) (m : Memory) (a : Nat) :
    Memory.read (c :: m) a = if c.1 = a then c.2 else Memory.read m a := by
  cases c; rfl

theorem read_filter_self (m : Memory) (a : Nat) :
    Memory.read (m.filter fun c => c.1 != a) a = unlistedByte := by
  induction m with
  | nil => rfl
  | cons c m ih =>
    by_cases h : c.1 = a
    · simp [h, ih]
    · simp [h, read_cons, ih]

theorem read_filter_other (m : Memory) {a b : Nat} (hb : b ≠ a) :
    Memory.read (m.filter fun c => c.1 != a) b = Memory.read m b := by
  induction m with
  | nil => rfl
  | cons c m ih =>
    by_cases h : c.1 = a
    · simp [h, ih, read_cons, hb.symm]
    · simp [h, read_cons, ih]

theorem read_insertSorted (m : Memory) (a : Nat) (v : Byte) (b : Nat) (hm : a ∉ m.map Prod.fst) :
    Memory.read (m.insertSorted a v) b = if b = a then v else Memory.read m b := by
  induction m with
  | nil => simp [insertSorted, read_cons, eq_comm]
  | cons c m ih =>
    obtain ⟨k, w⟩ := c
    simp only [List.map_cons, List.mem_cons, not_or] at hm
    by_cases h : a < k
    · simp [insertSorted, h, read_cons, eq_comm]
    · rw [insertSorted, if_neg h, read_cons, ih hm.2]
      by_cases hb : b = a
      · subst hb; simp [Ne.symm hm.1]
      · simp [hb, read_cons]

/-- Read after write: the written byte at its own address, what was there at every other. -/
theorem read_write (m : Memory) (a : Nat) (v : Byte) (b : Nat) :
    (m.write a v).read b = if b = a then v else m.read b := by
  unfold write
  by_cases hv : v = unlistedByte
  · simp only [hv, if_true]
    by_cases hb : b = a
    · simp [hb, read_filter_self]
    · simp [hb, read_filter_other m hb]
  · simp only [hv, if_false]
    rw [read_insertSorted]
    · by_cases hb : b = a
      · simp [hb]
      · simp [hb, read_filter_other m hb]
    · simp

@[simp] theorem read_write_self (m : Memory) (a : Nat) (v : Byte) : (m.write a v).read a = v := by
  simp [read_write]

theorem read_write_other (m : Memory) {a b : Nat} (v : Byte) (h : b ≠ a) : (m.write a v).read b = m.read b := by
  simp [read_write, h]

/-- Read after a run of writes. -/
theorem read_writeBytes (m : Memory) (a : Nat) (bs : List Byte) (b : Nat) :
    (m.writeBytes a bs).read b = if a ≤ b ∧ b < a + bs.length then bs.getD (b - a) 0 else m.read b := by
  induction bs generalizing m a with
  | nil => simp [writeBytes, show ¬(a ≤ b ∧ b < a) by omega]
  | cons v bs ih =>
    rw [writeBytes, ih, read_write]
    by_cases h0 : b = a
    · subst h0; simp [show ¬(b + 1 ≤ b) by omega]
    · by_cases h1 : a + 1 ≤ b ∧ b < a + 1 + bs.length
      · have e : b - a = (b - (a + 1)) + 1 := by omega
        rw [if_pos h1, if_pos (by simp; omega), e, List.getD_cons_succ]
      · rw [if_neg h1, if_neg h0, if_neg (by simp; omega)]

theorem mem_insertSorted {m : Memory} {a : Nat} {v : Byte} {c : Host.Cell} :
    c ∈ m.insertSorted a v ↔ c = (a, v) ∨ c ∈ m := by
  induction m with
  | nil => simp [insertSorted]
  | cons d m ih =>
    obtain ⟨k, w⟩ := d
    by_cases h : a < k
    · simp [insertSorted, h]
    · simp only [insertSorted, if_neg h, List.mem_cons, ih]
      tauto

theorem pairwise_insertSorted {m : Memory} {a : Nat} {v : Byte}
    (hm : m.Pairwise (fun c d => c.1 < d.1)) (ha : ∀ c ∈ m, c.1 ≠ a) :
    (m.insertSorted a v).Pairwise (fun c d => c.1 < d.1) := by
  induction m with
  | nil => simp [insertSorted]
  | cons d m ih =>
    obtain ⟨k, w⟩ := d
    rw [List.pairwise_cons] at hm
    by_cases h : a < k
    · rw [insertSorted, if_pos h]
      refine List.pairwise_cons.2 ⟨?_, List.pairwise_cons.2 hm⟩
      intro c hc
      rcases List.mem_cons.1 hc with rfl | hc
      · exact h
      · exact h.trans (hm.1 c hc)
    · rw [insertSorted, if_neg h]
      refine List.pairwise_cons.2 ⟨?_, ih hm.2 fun c hc => ha c (List.mem_cons_of_mem _ hc)⟩
      intro c hc
      rcases mem_insertSorted.1 hc with rfl | hc
      · have := ha (k, w) List.mem_cons_self
        simp only at this ⊢; omega
      · exact hm.1 c hc

/-- A write inside the space keeps the canonical form. -/
theorem write_wf {size : Nat} {m : Memory} {a : Nat} (v : Byte) (hm : m.wfBelow size) (ha : a < size) :
    (m.write a v).wfBelow size := by
  unfold write
  have hf : Memory.wfBelow size (m.filter fun c => c.1 != a) :=
    ⟨hm.1.filter _, fun c hc => hm.2 c (List.mem_of_mem_filter hc)⟩
  by_cases hv : v = unlistedByte
  · simpa [hv] using hf
  · simp only [hv, if_false]
    refine ⟨pairwise_insertSorted hf.1 (by simp), fun c hc => ?_⟩
    rcases mem_insertSorted.1 hc with rfl | hc
    · exact ⟨ha, hv⟩
    · exact hf.2 c hc

/-- A run of writes inside the space keeps the canonical form. -/
theorem writeBytes_wf {size : Nat} {m : Memory} {a : Nat} (bs : List Byte) (hm : m.wfBelow size)
    (ha : a + bs.length ≤ size) : (m.writeBytes a bs).wfBelow size := by
  induction bs generalizing m a with
  | nil => exact hm
  | cons v bs ih =>
    simp only [List.length_cons] at ha
    exact ih (write_wf v hm (by omega)) (by omega)

theorem nil_wf (size : Nat) : Memory.wfBelow size [] := by simp [wfBelow]

end Memory

/-- Placing an opcode-table word keeps memory's canonical form. -/
theorem storeFetchWord_wf {s : State} (nbits w : Nat) (h : s.mem.wf) : (storeFetchWord s nbits w).mem.wf := by
  unfold storeFetchWord
  exact Memory.write_wf _ (Memory.write_wf _ (Memory.write_wf _ h (BitVec.isLt _)) (BitVec.isLt _)) (BitVec.isLt _)

/-- Loading an image that fits keeps memory's canonical form. -/
theorem loadImage_wf {s : State} {image : List Byte} (h : s.mem.wf) (hlen : image.length ≤ maxImage) :
    (loadImage image s).mem.wf := by
  refine Memory.writeBytes_wf image h ?_
  have : resetPc.toNat = 0x100 := rfl
  simp only [this, maxImage, memSize] at hlen ⊢
  omega

end Sys2Proof.Machine
end

