-- ==== Sys2Proof/Laws/State.lean ====
section
/-! SUPPORT. One lemma per field per update of the state, and how the updates of the two stacks meet. -/

namespace Sys2Proof.Machine

section advance
variable (n : Nat) (s : State)
@[simp] theorem advance_pc : (advance n s).pc = s.pc + BitVec.ofNat 16 n := rfl
@[simp] theorem advance_wst : (advance n s).wst = s.wst := rfl
@[simp] theorem advance_rst : (advance n s).rst = s.rst := rfl
@[simp] theorem advance_mem : (advance n s).mem = s.mem := rfl
@[simp] theorem advance_io : (advance n s).io = s.io := rfl
@[simp] theorem advance_run : (advance n s).run = s.run := rfl
@[simp] theorem advance_events : (advance n s).events = s.events := rfl
@[simp] theorem advance_params : (advance n s).params = s.params := rfl
@[simp] theorem advance_replies : (advance n s).replies = s.replies := rfl
@[simp] theorem advance_draws : (advance n s).draws = s.draws := rfl
end advance

section takeFault
variable (k : Fault) (a : Short) (s : State)
@[simp] theorem takeFault_pc : (takeFault k a s).pc = s.pc := rfl
@[simp] theorem takeFault_wst : (takeFault k a s).wst = s.wst := rfl
@[simp] theorem takeFault_rst : (takeFault k a s).rst = s.rst := rfl
@[simp] theorem takeFault_mem : (takeFault k a s).mem = s.mem := rfl
@[simp] theorem takeFault_io : (takeFault k a s).io = s.io := rfl
@[simp] theorem takeFault_run : (takeFault k a s).run = .faulted k a := rfl
@[simp] theorem takeFault_events : (takeFault k a s).events = s.events := rfl
@[simp] theorem takeFault_params : (takeFault k a s).params = s.params := rfl
@[simp] theorem takeFault_replies : (takeFault k a s).replies = s.replies := rfl
@[simp] theorem takeFault_draws : (takeFault k a s).draws = s.draws := rfl
end takeFault

section halt
variable (s : State)
@[simp] theorem halt_pc : (halt s).pc = s.pc := rfl
@[simp] theorem halt_wst : (halt s).wst = s.wst := rfl
@[simp] theorem halt_rst : (halt s).rst = s.rst := rfl
@[simp] theorem halt_mem : (halt s).mem = s.mem := rfl
@[simp] theorem halt_io : (halt s).io = s.io := rfl
@[simp] theorem halt_run : (halt s).run = .halted := rfl
@[simp] theorem halt_events : (halt s).events = s.events := rfl
@[simp] theorem halt_params : (halt s).params = s.params := rfl
@[simp] theorem halt_replies : (halt s).replies = s.replies := rfl
@[simp] theorem halt_draws : (halt s).draws = s.draws := rfl
end halt

section record
variable (e : Event) (s : State)
@[simp] theorem record_pc : (record e s).pc = s.pc := rfl
@[simp] theorem record_wst : (record e s).wst = s.wst := rfl
@[simp] theorem record_rst : (record e s).rst = s.rst := rfl
@[simp] theorem record_mem : (record e s).mem = s.mem := rfl
@[simp] theorem record_io : (record e s).io = s.io := rfl
@[simp] theorem record_run : (record e s).run = s.run := rfl
@[simp] theorem record_events : (record e s).events = s.events ++ [e] := rfl
@[simp] theorem record_params : (record e s).params = s.params := rfl
@[simp] theorem record_replies : (record e s).replies = s.replies := rfl
@[simp] theorem record_draws : (record e s).draws = s.draws := rfl
end record

section ioStore
variable (p v : Byte) (s : State)
@[simp] theorem ioStore_pc : (ioStore p v s).pc = s.pc := rfl
@[simp] theorem ioStore_wst : (ioStore p v s).wst = s.wst := rfl
@[simp] theorem ioStore_rst : (ioStore p v s).rst = s.rst := rfl
@[simp] theorem ioStore_mem : (ioStore p v s).mem = s.mem := rfl
@[simp] theorem ioStore_io : (ioStore p v s).io = s.io.write p.toNat v := rfl
@[simp] theorem ioStore_run : (ioStore p v s).run = s.run := rfl
@[simp] theorem ioStore_events : (ioStore p v s).events = s.events := rfl
@[simp] theorem ioStore_params : (ioStore p v s).params = s.params := rfl
@[simp] theorem ioStore_replies : (ioStore p v s).replies = s.replies := rfl
@[simp] theorem ioStore_draws : (ioStore p v s).draws = s.draws := rfl
end ioStore

section loadImage
variable (image : List Byte) (s : State)
@[simp] theorem loadImage_pc : (loadImage image s).pc = s.pc := rfl
@[simp] theorem loadImage_wst : (loadImage image s).wst = s.wst := rfl
@[simp] theorem loadImage_rst : (loadImage image s).rst = s.rst := rfl
@[simp] theorem loadImage_mem : (loadImage image s).mem = s.mem.writeBytes resetPc.toNat image := rfl
@[simp] theorem loadImage_io : (loadImage image s).io = s.io := rfl
@[simp] theorem loadImage_run : (loadImage image s).run = s.run := rfl
@[simp] theorem loadImage_events : (loadImage image s).events = s.events := rfl
@[simp] theorem loadImage_params : (loadImage image s).params = s.params := rfl
@[simp] theorem loadImage_replies : (loadImage image s).replies = s.replies := rfl
@[simp] theorem loadImage_draws : (loadImage image s).draws = s.draws := rfl
end loadImage

section setStack
variable (i : StackId) (x y : Stack) (s : State)
@[simp] theorem setStack_pc : (s.setStack i x).pc = s.pc := by cases i <;> rfl
@[simp] theorem setStack_wst_self : (s.setStack .wst x).wst = x := rfl
@[simp] theorem setStack_rst_self : (s.setStack .rst x).rst = x := rfl
@[simp] theorem setStack_wst_other : (s.setStack .rst x).wst = s.wst := rfl
@[simp] theorem setStack_rst_other : (s.setStack .wst x).rst = s.rst := rfl
@[simp] theorem setStack_mem : (s.setStack i x).mem = s.mem := by cases i <;> rfl
@[simp] theorem setStack_io : (s.setStack i x).io = s.io := by cases i <;> rfl
@[simp] theorem setStack_run : (s.setStack i x).run = s.run := by cases i <;> rfl
@[simp] theorem setStack_events : (s.setStack i x).events = s.events := by cases i <;> rfl
@[simp] theorem setStack_params : (s.setStack i x).params = s.params := by cases i <;> rfl
@[simp] theorem setStack_replies : (s.setStack i x).replies = s.replies := by cases i <;> rfl
@[simp] theorem setStack_draws : (s.setStack i x).draws = s.draws := by cases i <;> rfl
@[simp] theorem stack_setStack : (s.setStack i x).stack i = x := by cases i <;> rfl
@[simp] theorem setStack_setStack : (s.setStack i x).setStack i y = s.setStack i y := by cases i <;> rfl
@[simp] theorem setStack_stack : s.setStack i (s.stack i) = s := by cases i <;> rfl
@[simp] theorem stack_wst : s.stack .wst = s.wst := rfl
@[simp] theorem stack_rst : s.stack .rst = s.rst := rfl
theorem setStack_wst_eq : s.setStack .wst x = { s with wst := x } := rfl
end setStack

section andThen
variable {α β : Type} (a : α) (s : State) (k : Fault) (next : α → State → Micro β)
@[simp] theorem ok_andThen : (Micro.ok a s).andThen next = next a s := rfl
@[simp] theorem raise_andThen : (Micro.raise k s : Micro α).andThen next = .raise k s := rfl

/-- Where two lines in a row end well, the first did. -/
theorem andThen_ok {m : Micro α} {b : β} {t : State} (h : m.andThen next = .ok b t) :
    ∃ a u, m = .ok a u ∧ next a u = .ok b t := by
  cases m with
  | ok a u => exact ⟨a, u, rfl, h⟩
  | raise k u => cases h

/-- Where two lines in a row raise, the first did, or it ended well and the second did. -/
theorem andThen_raise {m : Micro α} {k : Fault} {t : State} (h : m.andThen next = .raise k t) :
    m = .raise k t ∨ ∃ a u, m = .ok a u ∧ next a u = .raise k t := by
  cases m with
  | ok a u => exact .inr ⟨a, u, rfl, h⟩
  | raise k' u => exact .inl (by cases h; rfl)
end andThen

/-- An instruction whose lines end well answers their state. -/
theorem runLines_ok {lines : State → Micro Unit} {s t : State} (h : lines (advance 1 s) = .ok () t) :
    runLines lines s = .next t := by
  simp [runLines, h]

/-- An instruction whose lines raise answers the faulted state. -/
theorem runLines_raise {lines : State → Micro Unit} {s t : State} {k : Fault}
    (h : lines (advance 1 s) = .raise k t) : runLines lines s = .next (takeFault k s.pc t) := by
  simp [runLines, h]

/-- All an instruction's lines can come to. -/
theorem runLines_cases {lines : State → Micro Unit} {s t : State} (h : runLines lines s = .next t) :
    lines (advance 1 s) = .ok () t ∨ ∃ k u, lines (advance 1 s) = .raise k u ∧ t = takeFault k s.pc u := by
  unfold runLines at h
  split at h
  · next heq => cases h; exact .inl heq
  · next k u heq => cases h; exact .inr ⟨k, u, heq, rfl⟩

/-- An instruction always answers a next state. -/
theorem runLines_next (lines : State → Micro Unit) (s : State) : ∃ t, runLines lines s = .next t := by
  unfold runLines
  split <;> exact ⟨_, rfl⟩

end Sys2Proof.Machine
end

