-- ==== Sys2Proof/Laws/Bus.lean ====
section
/-! SUPPORT. The device bus: what a notification gives with and without a device, and what it leaves alone. -/

namespace Sys2Proof.Machine

variable {p : Byte} {n : Notification} {v : NotifyValue} {s t : State}

/-! ### Port addresses -/

theorem slotOf_toNat (p : Byte) : (slotOf p).toNat = p.toNat / 16 := by
  have := p.isLt
  simp [slotOf, Nat.shiftRight_eq_div_pow]; omega

theorem portIn_toNat (p : Byte) : (portIn p).toNat = p.toNat % 16 := by
  simp [portIn]

theorem slotBase_le (slot : Slot) : slotBase slot + 16 ≤ 256 := by
  have := slot.isLt
  simp only [slotBase]; omega

/-- A port is one of a slot's 16 addresses exactly when the slot is its high nibble (R47, R70). -/
theorem mem_slot_iff (slot : Slot) (q : Byte) :
    (slotBase slot ≤ q.toNat ∧ q.toNat < slotBase slot + 16) ↔ slotOf q = slot := by
  rw [← BitVec.toNat_inj, slotOf_toNat]
  simp only [slotBase]; omega

/-- Away from the last port of a slot, the next port is in the same slot and does not wrap. -/
theorem toNat_succ_port (h : portIn p ≠ 0xF) : (p + 1).toNat = p.toNat + 1 := by
  have h1 : p.toNat % 16 ≠ 15 := by
    intro e; exact h (BitVec.eq_of_toNat_eq (by rw [portIn_toNat, e]; rfl))
  have := p.isLt
  rw [BitVec.toNat_add]
  simp; omega

theorem slotOf_succ_port (h : portIn p ≠ 0xF) : slotOf (p + 1) = slotOf p := by
  have h1 : p.toNat % 16 ≠ 15 := by
    intro e; exact h (BitVec.eq_of_toNat_eq (by rw [portIn_toNat, e]; rfl))
  rw [← BitVec.toNat_inj, slotOf_toNat, slotOf_toNat, toNat_succ_port h]
  omega

/-! ### Taking a reply -/

theorem takeReply_listed {r : DeviceReply} {rest : List DeviceReply} (h : s.replies = r :: rest) :
    takeReply n s = (r, { s with replies := rest }) := by
  simp [takeReply, h]

theorem takeReply_free (h : s.replies = []) :
    takeReply n s = (Config.freeReply s.draws n, { s with draws := s.draws + 1 }) := by
  simp [takeReply, h]

/-- All taking a reply can do: some reply, with only the two input fields moved on. -/
theorem takeReply_cases (n : Notification) (s : State) :
    ∃ r rs d, takeReply n s = (r, { s with replies := rs, draws := d }) ∧
      ((s.replies = r :: rs ∧ d = s.draws) ∨
        (s.replies = [] ∧ rs = [] ∧ d = s.draws + 1 ∧ r = Config.freeReply s.draws n)) := by
  cases h : s.replies with
  | nil => exact ⟨_, [], _, by rw [takeReply_free h, ← h], .inr ⟨rfl, rfl, rfl, rfl⟩⟩
  | cons r rest => exact ⟨r, rest, s.draws, by rw [takeReply_listed h], .inl ⟨rfl, rfl⟩⟩

/-! ### Latching -/

/-- The I/O page after a latch: the bytes the device left in its slot, if it may leave any (R78). -/
def latchedIo (latch : DeviceLatch) (slot : Slot) (latched : Vector Byte 16) (io : Memory) : Memory :=
  match latch with
  | .none => io
  | .ownSlotAny => io.writeBytes (slotBase slot) latched.toList

theorem latchSlot_eq (slot : Slot) (latched : Vector Byte 16) (s : State) :
    latchSlot slot latched s = { s with io := latchedIo s.params.latch slot latched s.io } := by
  unfold latchSlot latchedIo
  cases h : s.params.latch <;> rfl

@[simp] theorem latchedIo_none (slot : Slot) (latched : Vector Byte 16) (io : Memory) :
    latchedIo .none slot latched io = io := rfl

/-- A port of another slot keeps its byte (R70, R78). -/
theorem read_latchedIo_other {latch : DeviceLatch} {slot : Slot} {latched : Vector Byte 16} {io : Memory} {q : Byte}
    (h : slotOf q ≠ slot) : (latchedIo latch slot latched io).read q.toNat = io.read q.toNat := by
  cases latch with
  | none => rfl
  | ownSlotAny =>
    have := mt (mem_slot_iff slot q).1 h
    simp only [latchedIo, Memory.read_writeBytes, Vector.length_toList, if_neg this]

/-- Under `own_slot_any` a port of the slot holds the byte the device left in it (R78). -/
theorem read_latchedIo_own {slot : Slot} {latched : Vector Byte 16} {io : Memory} {q : Byte} (h : slotOf q = slot) :
    (latchedIo .ownSlotAny slot latched io).read q.toNat = latched[(portIn q).toNat]'(portIn q).isLt := by
  have hm := (mem_slot_iff slot q).2 h
  simp only [latchedIo, Memory.read_writeBytes, Vector.length_toList, if_pos hm]
  have e : q.toNat - slotBase slot = (portIn q).toNat := by
    rw [portIn_toNat]; simp only [slotBase] at hm ⊢; omega
  rw [e, List.getD_eq_getElem?_getD, List.getElem?_eq_getElem (by simpa using (portIn q).isLt)]
  simp

/-- The I/O page after a latch, port by port (R78). -/
theorem read_latchedIo (latch : DeviceLatch) (slot : Slot) (latched : Vector Byte 16) (io : Memory) (q : Byte) :
    (latchedIo latch slot latched io).read q.toNat =
      if latch = .ownSlotAny ∧ slotOf q = slot then latched[(portIn q).toNat]'(portIn q).isLt else io.read q.toNat := by
  by_cases hs : slotOf q = slot
  · cases latch with
    | none => simp
    | ownSlotAny => simpa [hs] using read_latchedIo_own hs
  · simp only [hs, and_false, if_false]
    exact read_latchedIo_other hs

/-- The I/O page after one byte is written, port by port. -/
theorem read_write_port (io : Memory) (p q v : Byte) :
    (io.write p.toNat v).read q.toNat = if q = p then v else io.read q.toNat := by
  rw [Memory.read_write]; simp [BitVec.toNat_inj]

theorem latchedIo_wf {latch : DeviceLatch} {slot : Slot} {latched : Vector Byte 16} {io : Memory} (h : io.wfIo) :
    (latchedIo latch slot latched io).wfIo := by
  cases latch with
  | none => exact h
  | ownSlotAny => exact Memory.writeBytes_wf _ h (by simpa [ioSize] using slotBase_le slot)

/-! ### Notifying -/

/-- A slot with no device: nothing but the event (R74, R85). -/
theorem notify_absent (h : slotOf p ∉ s.params.attached) :
    notify p v s = .ok () (record (eventOf p v .ok) s) := by
  simp [notify, exchange, notificationOf, h]

/-- A device whose reply is listed (R75, R78). -/
theorem notify_listed {r : DeviceReply} {rest : List DeviceReply} (ha : slotOf p ∈ s.params.attached)
    (h : s.replies = r :: rest) :
    notify p v s =
      (let u := record (eventOf p v r.result)
        { s with replies := rest, io := latchedIo s.params.latch (slotOf p) r.latched s.io }
       match r.result with
       | .ok => .ok () u
       | .unknownPort => .raise .unknownPort u) := by
  have ha' : slotOf (notificationOf p v s).port ∈ s.params.attached := ha
  simp only [notify, exchange, takeReply_listed h, latchSlot_eq]
  simp only [List.contains_eq_mem, ha', decide_true, if_true]
  rfl

/-- A device with no reply listed: the free reply for this draw and this notification (log entry 5). -/
theorem notify_free (ha : slotOf p ∈ s.params.attached) (h : s.replies = []) :
    notify p v s =
      (let r := Config.freeReply s.draws (notificationOf p v s)
       let u := record (eventOf p v r.result)
        { s with draws := s.draws + 1, io := latchedIo s.params.latch (slotOf p) r.latched s.io }
       match r.result with
       | .ok => .ok () u
       | .unknownPort => .raise .unknownPort u) := by
  have ha' : slotOf (notificationOf p v s).port ∈ s.params.attached := ha
  simp only [notify, exchange, takeReply_free h, latchSlot_eq]
  simp only [List.contains_eq_mem, ha', decide_true, if_true]
  rfl

/-- All a notification can do: one event, inputs moved on, the slot's own bytes, and the answer. -/
theorem notify_cases (p : Byte) (v : NotifyValue) (s : State) :
    ∃ res io rs d,
      let u := record (eventOf p v res) { s with io := io, replies := rs, draws := d }
      (notify p v s = match res with | .ok => .ok () u | .unknownPort => .raise .unknownPort u) ∧
      ((slotOf p ∉ s.params.attached ∧ res = .ok ∧ io = s.io ∧ rs = s.replies ∧ d = s.draws) ∨
        (slotOf p ∈ s.params.attached ∧ ∃ r, takeReply (notificationOf p v s) s = (r, { s with replies := rs, draws := d }) ∧
          res = r.result ∧ io = latchedIo s.params.latch (slotOf p) r.latched s.io)) := by
  by_cases ha : slotOf p ∈ s.params.attached
  · obtain ⟨r, rs, d, e, -⟩ := takeReply_cases (notificationOf p v s) s
    refine ⟨r.result, _, rs, d, ?_, .inr ⟨ha, r, e, rfl, rfl⟩⟩
    have ha' : slotOf (notificationOf p v s).port ∈ s.params.attached := ha
    simp [notify, exchange, ha', e, latchSlot_eq]
    rfl
  · exact ⟨.ok, s.io, s.replies, s.draws, notify_absent ha, .inl ⟨ha, rfl, rfl, rfl, rfl⟩⟩

theorem ioStore_wf (p v : Byte) (h : s.io.wfIo) : (ioStore p v s).io.wfIo :=
  Memory.write_wf v h p.isLt

end Sys2Proof.Machine
end

