-- ==== Sys2Proof/Laws/Decode.lean ====
section
/-! SUPPORT. Shorts and their bytes, the fields of an opcode byte, and what the decoder makes of a byte put together from its fields. -/

namespace Sys2Proof

/-! ### Shorts and their bytes (R13) -/

@[simp] theorem joinShort_hi8_lo8 (v : Short) : joinShort (hi8 v) (lo8 v) = v := by
  unfold joinShort hi8 lo8
  apply BitVec.eq_of_getLsbD_eq
  intro n hn
  simp only [BitVec.getLsbD_append, BitVec.getLsbD_extractLsb']
  by_cases h : n < 8
  · simp [h]
  · simp [h, show n - 8 < 8 by omega, show 8 + (n - 8) = n by omega]

@[simp] theorem hi8_joinShort (hi lo : Byte) : hi8 (joinShort hi lo) = hi := by
  unfold joinShort hi8
  apply BitVec.eq_of_getLsbD_eq
  intro n hn
  simp only [BitVec.getLsbD_extractLsb', BitVec.getLsbD_append, hn, show ¬(8 + n < 8) by omega, Nat.add_sub_cancel_left]
  simp

@[simp] theorem lo8_joinShort (hi lo : Byte) : lo8 (joinShort hi lo) = lo := by
  unfold joinShort lo8
  apply BitVec.eq_of_getLsbD_eq
  intro n hn
  simp only [BitVec.getLsbD_extractLsb', BitVec.getLsbD_append, hn, Nat.zero_add]
  simp

/-- `hi:lo` is `hi * 256 + lo` (R13). -/
theorem joinShort_toNat (hi lo : Byte) : (joinShort hi lo).toNat = hi.toNat * 256 + lo.toNat := by
  unfold joinShort
  rw [BitVec.toNat_append, Nat.shiftLeft_eq, ← Nat.shiftLeft_eq, ← Nat.shiftLeft_add_eq_or_of_lt lo.isLt,
    Nat.shiftLeft_eq]

/-! ### Opcode bytes (R92, R100) -/

section fields
variable (keep ret short : Bool) (base : Base)

@[simp] theorem baseField_opcodeByte : baseField (opcodeByte keep ret short base) = base := by
  unfold baseField opcodeByte
  apply BitVec.eq_of_getLsbD_eq
  intro n hn
  simp only [BitVec.getLsbD_extractLsb', BitVec.getLsbD_append, hn, Nat.zero_add]
  simp

@[simp] theorem shortFlag_opcodeByte : shortFlag (opcodeByte keep ret short base) = short := by
  simp only [shortFlag, opcodeByte, BitVec.getLsbD_append]; simp

@[simp] theorem returnFlag_opcodeByte : returnFlag (opcodeByte keep ret short base) = ret := by
  simp only [returnFlag, opcodeByte, BitVec.getLsbD_append]; simp

@[simp] theorem keepFlag_opcodeByte : keepFlag (opcodeByte keep ret short base) = keep := by
  simp only [keepFlag, opcodeByte, BitVec.getLsbD_append]; simp

/-- A byte is put together again from its four fields (R92). -/
theorem opcodeByte_fields (b : Byte) :
    opcodeByte (keepFlag b) (returnFlag b) (shortFlag b) (baseField b) = b := by
  revert b; decide

end fields

section classify
variable {bc : BaseCode} {b : Byte}

theorem classify_return (h : returnFlag b = true) : classify bc b = .returnFlagSet := by
  simp [classify, h]

theorem classify_lit (hr : returnFlag b = false) (hk : keepFlag b = true) (hb : baseField b = 0) :
    classify bc b = .op .lit (shortFlag b) := by
  simp [classify, hr, hk, hb]

theorem classify_keep (hr : returnFlag b = false) (hk : keepFlag b = true) (hb : baseField b ≠ 0) :
    classify bc b = .keepFlagSet := by
  have hb' : ¬ baseField b = 0#5 := hb
  simp [classify, hr, hk, hb']

theorem classify_brk (hr : returnFlag b = false) (hk : keepFlag b = false) (hb : baseField b = 0) :
    classify bc b = .op .brk (shortFlag b) := by
  simp [classify, hr, hk, hb]

theorem classify_unassigned (hr : returnFlag b = false) (hk : keepFlag b = false)
    (hb : baseField b ∉ bc.assigned) : classify bc b = .unassignedBase := by
  simp only [BaseCode.assigned, List.mem_cons, List.not_mem_nil, or_false, not_or] at hb
  have hb' : ¬ baseField b = 0#5 := hb.1
  simp [classify, hr, hk, hb, hb']

/-- All the decoder can say of a byte. -/
theorem classify_cases (bc : BaseCode) (b : Byte) :
    (returnFlag b = true ∧ classify bc b = .returnFlagSet) ∨
    (returnFlag b = false ∧ keepFlag b = true ∧ baseField b ≠ 0 ∧ classify bc b = .keepFlagSet) ∨
    (returnFlag b = false ∧ keepFlag b = false ∧ baseField b ∉ bc.assigned ∧ classify bc b = .unassignedBase) ∨
    (∃ m, returnFlag b = false ∧ keepFlag b = (m == .lit) ∧ baseField b = m.base bc ∧
      classify bc b = .op m (shortFlag b)) := by
  cases hr : returnFlag b
  case true => exact .inl ⟨rfl, classify_return hr⟩
  cases hk : keepFlag b
  case true =>
    by_cases hb : baseField b = 0
    · exact .inr (.inr (.inr ⟨.lit, rfl, rfl, hb, classify_lit hr hk hb⟩))
    · exact .inr (.inl ⟨rfl, rfl, hb, classify_keep hr hk hb⟩)
  refine .inr (.inr ?_)
  by_cases h0 : baseField b = 0
  · exact .inr ⟨.brk, rfl, rfl, h0, classify_brk hr hk h0⟩
  have h0' : ¬ baseField b = 0#5 := h0
  by_cases h1 : baseField b = bc.inc
  · exact .inr ⟨.inc, rfl, rfl, h1, by simp [classify, hr, hk, h0', ← h1]⟩
  by_cases h2 : baseField b = bc.dei
  · exact .inr ⟨.dei, rfl, rfl, h2, by simp [classify, hr, hk, h0', h1, ← h2]⟩
  by_cases h3 : baseField b = bc.deo
  · exact .inr ⟨.deo, rfl, rfl, h3, by simp [classify, hr, hk, h0', h1, h2, ← h3]⟩
  by_cases h4 : baseField b = bc.add
  · exact .inr ⟨.add, rfl, rfl, h4, by simp [classify, hr, hk, h0', h1, h2, h3, ← h4]⟩
  by_cases h5 : baseField b = bc.sub
  · exact .inr ⟨.sub, rfl, rfl, h5, by simp [classify, hr, hk, h0', h1, h2, h3, h4, ← h5]⟩
  · exact .inl ⟨rfl, rfl, by simp [BaseCode.assigned, h0', h1, h2, h3, h4, h5],
      classify_unassigned hr hk (by simp [BaseCode.assigned, h0', h1, h2, h3, h4, h5])⟩

/-- The byte of a legal opcode decodes to its operation (R107). -/
theorem classify_opcodeByte (hv : bc.valid) (m : Mnemonic) (short : Bool) :
    classify bc (opcodeByte (m == .lit) false short (m.base bc)) = .op m short := by
  simp only [BaseCode.valid, List.nodup_cons, List.mem_cons, List.not_mem_nil, or_false, not_or] at hv
  obtain ⟨⟨a1, a2, a3, a4, a5⟩, ⟨b1, b2, b3, b4⟩, ⟨c1, c2, c3⟩, ⟨d1, d2⟩, e1, -⟩ := hv
  have z1 : ¬ bc.inc = 0#5 := Ne.symm a1
  have z2 : ¬ bc.dei = 0#5 := Ne.symm a2
  have z3 : ¬ bc.deo = 0#5 := Ne.symm a3
  have z4 : ¬ bc.add = 0#5 := Ne.symm a4
  have z5 : ¬ bc.sub = 0#5 := Ne.symm a5
  cases m <;>
    simp [classify, Mnemonic.base, z1, z2, z3, z4, z5, Ne.symm b1, Ne.symm b2,
      Ne.symm b3, Ne.symm b4, Ne.symm c1, Ne.symm c2, Ne.symm c3, Ne.symm d1, Ne.symm d2, Ne.symm e1]

/-- A decoder answer decides the instruction. -/
theorem decodeWindow_of {c : OpcodeClass} {i1 i2 : Byte} (h : classify bc b = c) :
    decodeWindow bc b i1 i2 = instrOf c b i1 i2 := by
  rw [decodeWindow, h]

end classify

/-- The encoding of an instruction is as long as the instruction (R91). -/
theorem encode_length (bc : BaseCode) (i : Instr) : (encode bc i).length = i.size := by
  cases i <;> rfl

theorem one_le_size (i : Instr) : 1 ≤ i.size := by cases i <;> simp [Instr.size]

theorem size_le_three (i : Instr) : i.size ≤ 3 := by cases i <;> simp [Instr.size]

theorem uxn_valid : BaseCode.uxn.valid := by decide

end Sys2Proof
end

