-- ==== Sys2Proof/Laws/PerInstr.lean ====
section
/-! SUPPORT. Facts of every instruction as syntax, one lemma a constructor. -/

namespace Sys2Proof.Laws

namespace OpcodeWindow

/-- Under a valid `BASE_CODE`, the decoder reads a well-formed instruction back from its opcode byte followed by its
immediate bytes, whatever stands in the bytes it does not use. -/
def Statement (i : Instr) : Prop :=
  ∀ bc : BaseCode, bc.valid → i.wellFormed bc = true →
    ∀ x y : Byte, decodeWindow bc (i.opcode bc) (i.immediate.getD 0 x) (i.immediate.getD 1 y) = i

theorem brk : Statement .brk := fun _ hv _ _ _ => decodeWindow_of (classify_opcodeByte hv .brk false)

theorem brk2 : Statement .brk2 := fun _ hv _ _ _ => decodeWindow_of (classify_opcodeByte hv .brk true)

theorem inc : Statement .inc := fun _ hv _ _ _ => decodeWindow_of (classify_opcodeByte hv .inc false)

theorem inc2 : Statement .inc2 := fun _ hv _ _ _ => decodeWindow_of (classify_opcodeByte hv .inc true)

theorem dei : Statement .dei := fun _ hv _ _ _ => decodeWindow_of (classify_opcodeByte hv .dei false)

theorem dei2 : Statement .dei2 := fun _ hv _ _ _ => decodeWindow_of (classify_opcodeByte hv .dei true)

theorem deo : Statement .deo := fun _ hv _ _ _ => decodeWindow_of (classify_opcodeByte hv .deo false)

theorem deo2 : Statement .deo2 := fun _ hv _ _ _ => decodeWindow_of (classify_opcodeByte hv .deo true)

theorem add : Statement .add := fun _ hv _ _ _ => decodeWindow_of (classify_opcodeByte hv .add false)

theorem add2 : Statement .add2 := fun _ hv _ _ _ => decodeWindow_of (classify_opcodeByte hv .add true)

theorem sub : Statement .sub := fun _ hv _ _ _ => decodeWindow_of (classify_opcodeByte hv .sub false)

theorem sub2 : Statement .sub2 := fun _ hv _ _ _ => decodeWindow_of (classify_opcodeByte hv .sub true)

theorem lit (imm : Byte) : Statement (.lit imm) := fun _ hv _ _ _ =>
  decodeWindow_of (classify_opcodeByte hv .lit false)

theorem lit2 (imm : Short) : Statement (.lit2 imm) := fun _ hv _ _ _ =>
  (decodeWindow_of (classify_opcodeByte hv .lit true)).trans (congrArg Instr.lit2 (joinShort_hi8_lo8 imm))

theorem illegalReturn (keep short : Bool) (base : Base) : Statement (.illegalReturn keep short base) := fun _ _ _ _ _ =>
  (decodeWindow_of (classify_return (returnFlag_opcodeByte keep true short base))).trans (by simp [instrOf])

theorem illegalKeep (short : Bool) (base : Base) : Statement (.illegalKeep short base) := fun _ _ hw _ _ =>
  (decodeWindow_of (classify_keep (by simp [Instr.opcode]) (by simp [Instr.opcode])
    (by simpa [Instr.opcode, Instr.wellFormed] using hw))).trans (by simp [instrOf, Instr.opcode])

theorem illegalBase (short : Bool) (base : Base) : Statement (.illegalBase short base) := fun _ _ hw _ _ =>
  (decodeWindow_of (classify_unassigned (by simp [Instr.opcode]) (by simp [Instr.opcode])
    (by simpa [Instr.opcode, Instr.wellFormed] using hw))).trans (by simp [instrOf, Instr.opcode])

end OpcodeWindow

end Sys2Proof.Laws
end

