-- ==== Sys2Proof/Laws/Stack.lean ====
section
/-! SUPPORT. What each stack primitive gives on each shape of the stack, and all it can do. -/

namespace Sys2Proof.Machine

variable {i : StackId} {s t : State} {r : Stack}

/-! ### One byte -/

theorem pop_concat {b : Byte} (h : s.stack i = r ++ [b]) : pop i s = .ok b (s.setStack i r) := by
  simp [pop, h]

theorem pop_empty (h : s.stack i = []) : pop i s = .raise .stackUnderflow s := by
  simp [pop, h]

/-- All a pop can do when it ends well. -/
theorem pop_ok {b : Byte} (h : pop i s = .ok b t) : ∃ r, s.stack i = r ++ [b] ∧ t = s.setStack i r := by
  rcases List.eq_nil_or_concat' (s.stack i) with hs | ⟨r, c, hs⟩
  · rw [pop_empty hs] at h; cases h
  · rw [pop_concat hs] at h; cases h; exact ⟨r, hs, rfl⟩

/-- All a pop can do when it raises. -/
theorem pop_raise {k : Fault} (h : pop i s = .raise k t) : s.stack i = [] ∧ k = .stackUnderflow ∧ t = s := by
  rcases List.eq_nil_or_concat' (s.stack i) with hs | ⟨r, c, hs⟩
  · rw [pop_empty hs] at h; cases h; exact ⟨hs, rfl, rfl⟩
  · rw [pop_concat hs] at h; cases h

theorem push_room {b : Byte} (h : (s.stack i).length ≠ s.params.stackCapacity) :
    push i b s = .ok () (s.setStack i (s.stack i ++ [b])) := by
  simp [push, h]

theorem push_full {b : Byte} (h : (s.stack i).length = s.params.stackCapacity) :
    push i b s = .raise .stackOverflow s := by
  simp [push, h]

/-- All a push can do when it ends well. -/
theorem push_ok {b : Byte} (h : push i b s = .ok () t) :
    (s.stack i).length ≠ s.params.stackCapacity ∧ t = s.setStack i (s.stack i ++ [b]) := by
  unfold push at h
  split at h
  · cases h
  · next hc => cases h; exact ⟨hc, rfl⟩

/-- All a push can do when it raises. -/
theorem push_raise {b : Byte} {k : Fault} (h : push i b s = .raise k t) :
    (s.stack i).length = s.params.stackCapacity ∧ k = .stackOverflow ∧ t = s := by
  unfold push at h
  split at h
  · next hc => cases h; exact ⟨hc, rfl, rfl⟩
  · cases h

/-! ### Two bytes -/

theorem pop2_concat {hi lo : Byte} (h : s.stack i = r ++ [hi, lo]) :
    pop2 i s = .ok (joinShort hi lo) (s.setStack i r) := by
  have h1 : pop i s = .ok lo (s.setStack i (r ++ [hi])) := pop_concat (by simp [h])
  have h2 : pop i (s.setStack i (r ++ [hi])) = .ok hi ((s.setStack i (r ++ [hi])).setStack i r) :=
    pop_concat (by simp)
  simp [pop2, h1, h2]

theorem pop2_short (h : (s.stack i).length < 2) : pop2 i s = .raise .stackUnderflow (s.setStack i []) := by
  rcases List.eq_nil_or_concat' (s.stack i) with hs | ⟨r, b, hs⟩
  · rw [← hs, setStack_stack, pop2, pop_empty hs, raise_andThen]
  · have hr : r = [] := by rw [hs] at h; simpa using h
    subst hr
    rw [pop2, pop_concat hs, ok_andThen, pop_empty (by simp), raise_andThen]

/-- All a two-byte pop can do when it ends well. -/
theorem pop2_ok {v : Short} (h : pop2 i s = .ok v t) :
    ∃ r, s.stack i = r ++ [hi8 v, lo8 v] ∧ t = s.setStack i r := by
  obtain ⟨lo, u, h1, h⟩ := andThen_ok _ h
  obtain ⟨hi, w, h2, h⟩ := andThen_ok _ h
  obtain ⟨r1, e1, rfl⟩ := pop_ok h1
  obtain ⟨r2, e2, rfl⟩ := pop_ok h2
  cases h
  exact ⟨r2, by simp [e1, show r1 = r2 ++ [hi] by simpa using e2], by simp⟩

/-- All a two-byte pop can do when it raises. -/
theorem pop2_raise {k : Fault} (h : pop2 i s = .raise k t) :
    (s.stack i).length < 2 ∧ k = .stackUnderflow ∧ t = s.setStack i [] := by
  rcases andThen_raise _ h with h1 | ⟨lo, u, h1, h⟩
  · obtain ⟨e, rfl, rfl⟩ := pop_raise h1
    exact ⟨by simp [e], rfl, by rw [← e, setStack_stack]⟩
  · rcases andThen_raise _ h with h2 | ⟨hi, w, h2, h⟩
    · obtain ⟨r1, e1, rfl⟩ := pop_ok h1
      obtain ⟨e2, rfl, rfl⟩ := pop_raise h2
      have : r1 = [] := by simpa using e2
      exact ⟨by simp [e1, this], rfl, by simp [this]⟩
    · cases h

theorem push2_room {v : Short} (h : (s.stack i).length + 2 ≤ s.params.stackCapacity) :
    push2 i v s = .ok () (s.setStack i (s.stack i ++ [hi8 v, lo8 v])) := by
  have h1 : push i (hi8 v) s = .ok () (s.setStack i (s.stack i ++ [hi8 v])) := push_room (by omega)
  have h2 : push i (lo8 v) (s.setStack i (s.stack i ++ [hi8 v])) = _ := push_room (by simp; omega)
  simp [push2, h1, h2]

/-- On a stack with one free byte the first push succeeds and the second raises (R41). -/
theorem push2_one_free {v : Short} (h : (s.stack i).length + 1 = s.params.stackCapacity) :
    push2 i v s = .raise .stackOverflow (s.setStack i (s.stack i ++ [hi8 v])) := by
  have h1 : push i (hi8 v) s = .ok () (s.setStack i (s.stack i ++ [hi8 v])) := push_room (by omega)
  have h2 : push i (lo8 v) (s.setStack i (s.stack i ++ [hi8 v])) = _ := push_full (by simp; omega)
  simp [push2, h1, h2]

theorem push2_full {v : Short} (h : (s.stack i).length = s.params.stackCapacity) :
    push2 i v s = .raise .stackOverflow s := by
  simp [push2, push_full h]

/-- All a two-byte push can do when it ends well. -/
theorem push2_ok {v : Short} (h : push2 i v s = .ok () t) :
    (s.stack i).length ≠ s.params.stackCapacity ∧ (s.stack i).length + 1 ≠ s.params.stackCapacity ∧
      t = s.setStack i (s.stack i ++ [hi8 v, lo8 v]) := by
  obtain ⟨_, u, h1, h2⟩ := andThen_ok _ h
  obtain ⟨c1, rfl⟩ := push_ok h1
  obtain ⟨c2, rfl⟩ := push_ok h2
  exact ⟨c1, by simpa using c2, by simp⟩

/-- All a two-byte push can do when it raises. -/
theorem push2_raise {v : Short} {k : Fault} (h : push2 i v s = .raise k t) :
    k = .stackOverflow ∧ (((s.stack i).length = s.params.stackCapacity ∧ t = s) ∨
      ((s.stack i).length + 1 = s.params.stackCapacity ∧ t = s.setStack i (s.stack i ++ [hi8 v]))) := by
  rcases andThen_raise _ h with h1 | ⟨_, u, h1, h2⟩
  · obtain ⟨c, rfl, rfl⟩ := push_raise h1
    exact ⟨rfl, .inl ⟨c, rfl⟩⟩
  · obtain ⟨_, rfl⟩ := push_ok h1
    obtain ⟨c, rfl, rfl⟩ := push_raise h2
    exact ⟨rfl, .inr ⟨by simpa using c, rfl⟩⟩

/-! ### In place -/

theorem top_concat {b : Byte} (h : s.stack i = r ++ [b]) : top i s = .ok b s := by
  simp [top, h]

theorem top_empty (h : s.stack i = []) : top i s = .raise .stackUnderflow s := by
  simp [top, h]

theorem top2_concat {hi lo : Byte} (h : s.stack i = r ++ [hi, lo]) : top2 i s = .ok (joinShort hi lo) s := by
  simp [top2, h]

theorem top2_short (h : (s.stack i).length < 2) : top2 i s = .raise .stackUnderflow s := by
  simp [top2, h]

theorem setTop_concat {b c : Byte} (h : s.stack i = r ++ [b]) : setTop i c s = .ok () (s.setStack i (r ++ [c])) := by
  simp [setTop, h]

theorem setTop2_concat {hi lo : Byte} {v : Short} (h : s.stack i = r ++ [hi, lo]) :
    setTop2 i v s = .ok () (s.setStack i (r ++ [hi8 v, lo8 v])) := by
  simp [setTop2, h]

/-! ### Shapes -/

/-- A stack with a byte on it. -/
theorem exists_concat {x : Stack} (h : 1 ≤ x.length) : ∃ r b, x = r ++ [b] := by
  rcases List.eq_nil_or_concat' x with rfl | ⟨r, b, rfl⟩
  · simp at h
  · exact ⟨r, b, rfl⟩

/-- A stack with two bytes on it. -/
theorem exists_concat2 {x : Stack} (h : 2 ≤ x.length) : ∃ r a b, x = r ++ [a, b] := by
  obtain ⟨r, b, rfl⟩ := exists_concat (x := x) (by omega)
  obtain ⟨r, a, rfl⟩ := exists_concat (x := r) (by simp at h; omega)
  exact ⟨r, a, b, by simp⟩

end Sys2Proof.Machine
end

