-- ==== Sys2Proof/Laws/Step.lean ====
section
/-! SUPPORT. What lines of pseudocode leave alone, the step in each run state, and runs. -/

namespace Sys2Proof.Machine

variable {α β : Type} {s t : State}

/-! ### Lines that touch the working stack alone -/

/-- A working stack of `x` is no more over the capacity than that of `s` is. -/
def Fits (s : State) (x : Stack) : Prop :=
  s.wst.length ≤ s.params.stackCapacity → x.length ≤ s.params.stackCapacity

/-- Whether the lines end well or raise, only the working stack differs from the state they began in, it stays within the
capacity, and a fault is one of `ks`. -/
def OnlyWst (ks : List Fault) (m : Micro α) (s : State) : Prop :=
  (∀ a t, m = .ok a t → ∃ x, t = s.setStack .wst x ∧ Fits s x) ∧
  (∀ k t, m = .raise k t → k ∈ ks ∧ ∃ x, t = s.setStack .wst x ∧ Fits s x)

variable {ks : List Fault}

theorem onlyWst_ok (a : α) {x : Stack} (h : Fits s x) : OnlyWst ks (.ok a (s.setStack .wst x)) s :=
  ⟨fun _ _ e => by cases e; exact ⟨x, rfl, h⟩, nofun⟩

theorem onlyWst_ok_self (a : α) : OnlyWst ks (.ok a s) s := onlyWst_ok a (x := s.wst) id

theorem onlyWst_raise_self {k : Fault} (hk : k ∈ ks) : OnlyWst ks (.raise k s : Micro α) s :=
  ⟨nofun, fun _ _ e => by cases e; exact ⟨hk, s.wst, rfl, id⟩⟩

theorem OnlyWst.andThen {m : Micro α} {next : α → State → Micro β} (hm : OnlyWst ks m s)
    (hn : ∀ a u, OnlyWst ks (next a u) u) : OnlyWst ks (m.andThen next) s := by
  have compose : ∀ x y, Fits s x → Fits (s.setStack .wst x) y → Fits s y := fun x y hx hy h => by
    simpa using hy (by simpa using hx h)
  constructor
  · intro b t h
    obtain ⟨a, u, h1, h2⟩ := andThen_ok _ h
    obtain ⟨x, rfl, hx⟩ := hm.1 a u h1
    obtain ⟨y, rfl, hy⟩ := (hn a _).1 b t h2
    exact ⟨y, by simp, compose x y hx hy⟩
  · intro k t h
    rcases andThen_raise _ h with h1 | ⟨a, u, h1, h2⟩
    · exact hm.2 k t h1
    · obtain ⟨x, rfl, hx⟩ := hm.1 a u h1
      obtain ⟨hk, y, rfl, hy⟩ := (hn a _).2 k t h2
      exact ⟨hk, y, by simp, compose x y hx hy⟩

theorem onlyWst_pop (hk : .stackUnderflow ∈ ks) (s : State) : OnlyWst ks (pop .wst s) s := by
  unfold pop; split
  · exact onlyWst_raise_self hk
  · exact onlyWst_ok _ fun h => by simp; omega

theorem onlyWst_push (hk : .stackOverflow ∈ ks) (b : Byte) (s : State) : OnlyWst ks (push .wst b s) s := by
  unfold push; split
  · exact onlyWst_raise_self hk
  · next h => exact onlyWst_ok _ fun hs => by simp at h ⊢; omega

/-- Two bytes popped and one pushed: there is room, so the push raises nothing. -/
theorem onlyWst_byteOp (hk : .stackUnderflow ∈ ks) (f : Byte → Byte → Byte) (s : State)
    (hs : s.wst.length ≤ s.params.stackCapacity) : OnlyWst ks (byteOp f s) s := by
  rcases List.eq_nil_or_concat' s.wst with e | ⟨r1, b, e⟩
  · rw [byteOp, pop_empty (i := .wst) e, raise_andThen]; exact onlyWst_raise_self hk
  have h1 : pop .wst s = _ := pop_concat (i := .wst) e
  have hl : r1.length + 1 = s.wst.length := by simp [e]
  rcases List.eq_nil_or_concat' r1 with e2 | ⟨r2, a, e2⟩
  · rw [byteOp, h1, ok_andThen, pop_empty (by simp [e2]), raise_andThen]
    exact ⟨nofun, fun _ _ h => by cases h; exact ⟨hk, r1, rfl, fun _ => by omega⟩⟩
  · have h2 : pop .wst (s.setStack .wst r1) = _ := pop_concat (i := .wst) (r := r2) (b := a) (by simp [e2])
    have hl2 : r2.length + 1 = r1.length := by simp [e2]
    rw [byteOp, h1, ok_andThen, h2, ok_andThen, push_room (by simp; omega)]
    exact ⟨fun _ _ h => by cases h; exact ⟨r2 ++ [f a b], by simp, fun _ => by simp; omega⟩, nofun⟩

theorem onlyWst_pop2 (hk : .stackUnderflow ∈ ks) (s : State) : OnlyWst ks (pop2 .wst s) s :=
  (onlyWst_pop hk s).andThen fun _ u => (onlyWst_pop hk u).andThen fun _ _ => onlyWst_ok_self _

theorem onlyWst_push2 (hk : .stackOverflow ∈ ks) (v : Short) (s : State) : OnlyWst ks (push2 .wst v s) s :=
  (onlyWst_push hk _ s).andThen fun _ u => onlyWst_push hk _ u

/-- Two shorts popped and one pushed: there is room, so the push raises nothing. -/
theorem onlyWst_shortOp (hk : .stackUnderflow ∈ ks) (f : Short → Short → Short) (s : State)
    (hs : s.wst.length ≤ s.params.stackCapacity) : OnlyWst ks (shortOp f s) s := by
  by_cases hl : s.wst.length < 2
  · rw [shortOp, pop2_short (i := .wst) (by simpa using hl), raise_andThen]
    exact ⟨nofun, fun _ _ h => by cases h; exact ⟨hk, [], rfl, fun _ => by simp⟩⟩
  obtain ⟨r1, b1, b0, e⟩ := exists_concat2 (x := s.wst) (by omega)
  have h1 : pop2 .wst s = _ := pop2_concat (i := .wst) e
  have hl1 : r1.length + 2 = s.wst.length := by simp [e]
  by_cases hl2 : r1.length < 2
  · rw [shortOp, h1, ok_andThen, pop2_short (by simpa using hl2), raise_andThen]
    exact ⟨nofun, fun _ _ h => by cases h; exact ⟨hk, [], by simp, fun _ => by simp⟩⟩
  obtain ⟨r2, a1, a0, e2⟩ := exists_concat2 (x := r1) (by omega)
  have h2 : pop2 .wst (s.setStack .wst r1) = _ := pop2_concat (i := .wst) (r := r2) (hi := a1) (lo := a0) (by simp [e2])
  have hl3 : r2.length + 2 = r1.length := by simp [e2]
  rw [shortOp, h1, ok_andThen, h2, ok_andThen, push2_room (by simp; omega)]
  let v := f (joinShort a1 a0) (joinShort b1 b0)
  exact ⟨fun _ _ h => by cases h; exact ⟨r2 ++ [hi8 v, lo8 v], by simp [v], fun _ => by simp; omega⟩, nofun⟩

theorem onlyWst_top (hk : .stackUnderflow ∈ ks) (s : State) : OnlyWst ks (top .wst s) s := by
  unfold top; split
  · exact onlyWst_raise_self hk
  · exact onlyWst_ok_self _

theorem onlyWst_top2 (hk : .stackUnderflow ∈ ks) (s : State) : OnlyWst ks (top2 .wst s) s := by
  unfold top2; split
  · exact onlyWst_raise_self hk
  · exact onlyWst_ok_self _

theorem onlyWst_setTop (b : Byte) (s : State) : OnlyWst ks (setTop .wst b s) s := onlyWst_ok _ fun h => by simpa using h

theorem onlyWst_setTop2 (v : Short) (s : State) : OnlyWst ks (setTop2 .wst v s) s := onlyWst_ok _ fun h => by simpa using h

theorem onlyWst_ioRead (p : Byte) (s : State) : OnlyWst ks (ioRead p s) s := onlyWst_ok_self _

theorem onlyWst_ioRead2 (hk : .ioPageBounds ∈ ks) (p : Byte) (s : State) : OnlyWst ks (ioRead2 p s) s := by
  unfold ioRead2; split
  · exact onlyWst_raise_self hk
  · exact onlyWst_ok_self _

/-- All an instruction can do whose lines move `pc` on by `n` more bytes and touch nothing but the working stack: its run
state stays, or it takes one of the faults `ks`. -/
theorem runLines_onlyWst {lines : State → Micro Unit} {n : Nat}
    (hl : OnlyWst ks (lines (advance 1 s)) (advance (1 + n) s)) (h : runLines lines s = .next t) :
    ∃ (x : Stack) (run : RunState), t = { s with pc := s.pc + 1 + BitVec.ofNat 16 n, wst := x, run := run } ∧ Fits s x ∧
      (run = s.run ∨ ∃ k ∈ ks, run = .faulted k s.pc) := by
  rcases runLines_cases h with e | ⟨k, u, e, rfl⟩
  · obtain ⟨x, rfl, hx⟩ := hl.1 _ _ e
    exact ⟨x, s.run, by simp [State.setStack, advance, BitVec.ofNat_add, BitVec.add_assoc], hx, .inl rfl⟩
  · obtain ⟨hk, x, rfl, hx⟩ := hl.2 _ _ e
    exact ⟨x, _, by simp [State.setStack, takeFault, advance, BitVec.ofNat_add, BitVec.add_assoc], hx, .inr ⟨k, hk, rfl⟩⟩

/-! ### Instructions on a stack that holds their operands -/

section operands
variable {r : Stack}

/-- Two bytes, one result. -/
theorem runLines_byteOp (f : Byte → Byte → Byte) {a b : Byte} (hc : s.wst.length ≤ s.params.stackCapacity)
    (h : s.wst = r ++ [a, b]) :
    runLines (byteOp f) s = .next { s with pc := s.pc + 1, wst := r ++ [f a b] } := by
  have h1 : pop .wst (advance 1 s) = _ := pop_concat (i := .wst) (r := r ++ [a]) (b := b) (by simp [h])
  have h2 : pop .wst ((advance 1 s).setStack .wst (r ++ [a])) = _ := pop_concat (i := .wst) (r := r) (b := a) (by simp)
  rw [h] at hc
  simp only [List.length_append, List.length_cons, List.length_nil] at hc
  refine runLines_ok ?_
  simp only [byteOp, h1, h2, ok_andThen]
  rw [push_room (by simp; omega)]
  rfl

/-- Two shorts, one result. -/
theorem runLines_shortOp (f : Short → Short → Short) {a b : Short} (hc : s.wst.length ≤ s.params.stackCapacity)
    (h : s.wst = r ++ [hi8 a, lo8 a, hi8 b, lo8 b]) :
    runLines (shortOp f) s = .next { s with pc := s.pc + 1, wst := r ++ [hi8 (f a b), lo8 (f a b)] } := by
  have h1 : pop2 .wst (advance 1 s) = _ :=
    pop2_concat (i := .wst) (r := r ++ [hi8 a, lo8 a]) (hi := hi8 b) (lo := lo8 b) (by simp [h])
  have h2 : pop2 .wst ((advance 1 s).setStack .wst (r ++ [hi8 a, lo8 a])) = _ :=
    pop2_concat (i := .wst) (r := r) (hi := hi8 a) (lo := lo8 a) (by simp)
  rw [h] at hc
  simp only [List.length_append, List.length_cons, List.length_nil] at hc
  refine runLines_ok ?_
  simp only [shortOp, h1, h2, ok_andThen, joinShort_hi8_lo8]
  rw [push2_room (by simp; omega)]
  rfl

/-- DEO with its operands there is the bus write. -/
theorem execDeo_eq {v p : Byte} (h : s.wst = r ++ [v, p]) :
    execDeo s = runLines (fun _ => ioWrite p v { s with pc := s.pc + 1, wst := r }) s := by
  have h1 : pop .wst (advance 1 s) = _ := pop_concat (i := .wst) (r := r ++ [v]) (b := p) (by simp [h])
  have h2 : pop .wst ((advance 1 s).setStack .wst (r ++ [v])) = _ := pop_concat (i := .wst) (r := r) (b := v) (by simp)
  simp only [execDeo, runLines, h1, h2, ok_andThen]
  rfl

/-- DEO2 with its operands there is the bus write. -/
theorem execDeo2_eq {v : Short} {p : Byte} (h : s.wst = r ++ [hi8 v, lo8 v, p]) :
    execDeo2 s = runLines (fun _ => ioWrite2 p v { s with pc := s.pc + 1, wst := r }) s := by
  have h1 : pop .wst (advance 1 s) = _ := pop_concat (i := .wst) (r := r ++ [hi8 v, lo8 v]) (b := p) (by simp [h])
  have h2 : pop2 .wst ((advance 1 s).setStack .wst (r ++ [hi8 v, lo8 v])) = _ :=
    pop2_concat (i := .wst) (r := r) (hi := hi8 v) (lo := lo8 v) (by simp)
  simp only [execDeo2, runLines, h1, h2, ok_andThen, joinShort_hi8_lo8]
  rfl

/-- DEI with its operand there is the push of the port's byte. -/
theorem execDei_eq {p : Byte} (h : s.wst = r ++ [p]) :
    execDei s = runLines (fun _ => push .wst (ioByte s p) { s with pc := s.pc + 1, wst := r }) s := by
  have h1 : pop .wst (advance 1 s) = _ := pop_concat (i := .wst) (r := r) (b := p) (by simp [h])
  simp only [execDei, runLines, h1, ok_andThen, ioRead]
  rfl

/-- DEI2 with its operand there is the bus read and the push. -/
theorem execDei2_eq {p : Byte} (h : s.wst = r ++ [p]) :
    execDei2 s = runLines (fun _ => (ioRead2 p { s with pc := s.pc + 1, wst := r }).andThen fun v w => push2 .wst v w) s := by
  have h1 : pop .wst (advance 1 s) = _ := pop_concat (i := .wst) (r := r) (b := p) (by simp [h])
  simp only [execDei2, runLines, h1, ok_andThen]
  rfl

end operands

/-! ### The step -/

/-- Every instruction is lines of pseudocode inside a step, the same lines in every state. -/
theorem exec_lines (i : Instr) : ∃ lines : State → Micro Unit, ∀ s, exec i s = runLines lines s := by
  cases i <;>
    simp only [exec, execBrk, execBrk2, execLit, execLit2, execInc, execInc2, execDei, execDei2, execDeo, execDeo2, execAdd,
      execAdd2, execSub, execSub2, execIllegalReturn, execIllegalKeep, execIllegalBase] <;>
    exact ⟨_, fun _ => rfl⟩

theorem step_running (h : s.run = .running) : step s = exec (fetchInstr s) s := by
  simp [step, h]

theorem step_stopped (h : s.run ≠ .running) : step s = .next s := by
  unfold step stepWhenStopped
  cases hr : s.run <;> simp_all

theorem stepResult_running (h : s.run = .running) : s.stepResult = .goOn := by simp [State.stepResult, h]

/-! ### Runs -/

@[simp] theorem runFor_zero (s : State) : runFor 0 s = .next s := rfl

theorem runFor_succ (n : Nat) (h : step s = .next t) : runFor (n + 1) s = runFor n t := by
  have h' : Sys2Proof.core.step s = .next t := h
  show Host.Core.run Sys2Proof.core (n + 1) s = Host.Core.run Sys2Proof.core n t
  simp [Host.Core.run, h']

/-- What every step keeps, every run keeps. -/
theorem runFor_keeps {P : State → Prop} (hstep : ∀ s t, P s → step s = .next t → P t) (n : Nat) {s t : State}
    (hs : P s) (h : runFor n s = .next t) : P t := by
  induction n generalizing s with
  | zero => cases h; exact hs
  | succ n ih =>
    cases hst : step s with
    | next u => rw [runFor_succ n hst] at h; exact ih (hstep s u hs hst) h
    | fault k =>
      have h' : Sys2Proof.core.step s = .fault k := hst
      simp [runFor, Host.Core.run, h'] at h
    | refused r =>
      have h' : Sys2Proof.core.step s = .refused r := hst
      simp [runFor, Host.Core.run, h'] at h

end Sys2Proof.Machine
end

