-- ==== Sys2Proof/Tests/Slice0.lean ====
section
/-! SUPPORT. The model's own tests: expected results from the rules and from spec/95_test_vectors.md; and, for every
statement with hypotheses, a state that meets them. -/

namespace Sys2Proof.Tests

open Sys2Proof.Machine

/-! ### Small machines -/

/-- Four-byte stacks, a device in slots 1 and 15. -/
def smallParams (latch : DeviceLatch) : Params :=
  { baseCode := BaseCode.uxn, stackCapacity := 4, attached := [1, 15], latch := latch }

/-- Code at 0x0100 and a working stack, otherwise as after reset. -/
def machine (params : Params) (code : List Byte) (wst : Stack) : State :=
  { loadImage code (State.resetWith params) with wst := wst }

/-- Standard parameters. -/
def plain (code : List Byte) (wst : Stack) : State := machine Params.standard code wst

/-- A machine whose `pc` and memory are given whole. -/
def placed (pc : Short) (mem : Memory) (wst : Stack) : State :=
  { State.reset with pc := pc, mem := mem, wst := wst }

/-- The state after one step. -/
def after (s : State) : State :=
  match step s with
  | .next t => t
  | .fault _ => s
  | .refused _ => s

/-- A reply that answers the given result and leaves 0x55 in every port it may change. -/
def reply (r : NotifyResult) : DeviceReply := { result := r, latched := Vector.replicate 16 0x55 }

/-- A working stack of `n` bytes, the last one given. -/
def tall (n : Nat) (top : Byte) : Stack := List.replicate (n - 1) 0x11 ++ [top]

/-! ### WellFormed: each check refuses an ill-formed term -/

theorem test_wellFormed_keep_base_zero : Instr.wellFormed BaseCode.uxn (.illegalKeep false 0x00) = false := by decide
theorem test_wellFormed_keep : Instr.wellFormed BaseCode.uxn (.illegalKeep true 0x19) = true := by decide
theorem test_wellFormed_assigned_base :
    ∀ base ∈ ([0x00, 0x01, 0x16, 0x17, 0x18, 0x19] : List Base),
      Instr.wellFormed BaseCode.uxn (.illegalBase false base) = false := by decide
theorem test_wellFormed_unassigned_base : Instr.wellFormed BaseCode.uxn (.illegalBase true 0x1A) = true := by decide

/-! ### Decoding: words written out from R92, R101 and R102 -/

theorem test_decode_brk : decodeTableWord 8 0b00000000 = some .brk := by decide
theorem test_decode_brk2 : decodeTableWord 8 0b00100000 = some .brk2 := by decide
theorem test_decode_lit : decodeTableWord 16 0b0111111110000000 = some (.lit 0x7F) := by decide
theorem test_decode_lit2 : decodeTableWord 24 0b101111001001101010100000 = some (.lit2 0x9ABC) := by decide
theorem test_decode_inc : decodeTableWord 8 0b00000001 = some .inc := by decide
theorem test_decode_inc2 : decodeTableWord 8 0b00100001 = some .inc2 := by decide
theorem test_decode_dei : decodeTableWord 8 0b00010110 = some .dei := by decide
theorem test_decode_dei2 : decodeTableWord 8 0b00110110 = some .dei2 := by decide
theorem test_decode_deo : decodeTableWord 8 0b00010111 = some .deo := by decide
theorem test_decode_deo2 : decodeTableWord 8 0b00110111 = some .deo2 := by decide
theorem test_decode_add : decodeTableWord 8 0b00011000 = some .add := by decide
theorem test_decode_add2 : decodeTableWord 8 0b00111000 = some .add2 := by decide
theorem test_decode_sub : decodeTableWord 8 0b00011001 = some .sub := by decide
theorem test_decode_sub2 : decodeTableWord 8 0b00111001 = some .sub2 := by decide
theorem test_decode_return_flag :
    decodeTableWord 8 0b01000000 = some (.illegalReturn false false 0x00) ∧
    decodeTableWord 8 0b11111111 = some (.illegalReturn true true 0x1F) := by decide
theorem test_decode_keep_flag :
    decodeTableWord 8 0b10000001 = some (.illegalKeep false 0x01) ∧
    decodeTableWord 8 0b10111001 = some (.illegalKeep true 0x19) := by decide
theorem test_decode_unassigned :
    decodeTableWord 8 0b00000010 = some (.illegalBase false 0x02) ∧
    decodeTableWord 8 0b00111111 = some (.illegalBase true 0x1F) := by decide

/-- Reserved MUL with the keep flag: the keep check comes first (95_test_vectors.md 2.1, D6). -/
theorem test_classify_keep_before_base : classify BaseCode.uxn 0x9A = .keepFlagSet := by decide

/-- The counts of R102 and 95_test_vectors.md 2.1: 14 admitted, 190 and 52 faults. -/
theorem test_classify_counts :
    let all : List Byte := (List.range 256).map (BitVec.ofNat 8)
    all.countP (fun b => classify BaseCode.uxn b = .unassignedBase) = 52 ∧
    all.countP (fun b => classify BaseCode.uxn b = .returnFlagSet ∨ classify BaseCode.uxn b = .keepFlagSet) = 190 := by
  decide +kernel

theorem test_decode_rejects_cut_immediate :
    decode BaseCode.uxn [0xA0, 0x12] = .rejected .truncatedImmediate ∧ decode BaseCode.uxn [] = .rejected .noOpcode := by
  decide

/-- Another `BASE_CODE` moves the bytes (R94). -/
theorem test_decode_other_base_code :
    decodeWindow { inc := 0x0A, dei := 0x16, deo := 0x17, add := 0x18, sub := 0x19 } 0x2A 0 0 = .inc2 := by decide

/-! ### One step (95_test_vectors.md 2.3 to 2.9) -/

theorem test_brk : (after (plain [0x00] [])).run = .halted ∧ (after (plain [0x00] [])).pc = 0x0101 := by decide
theorem test_brk_at_top : (after (placed 0xFFFF [] [])).pc = 0x0000 := by decide
theorem test_brk2 : (after (plain [0x20] [])).stepResult = .halt ∧ (after (plain [0x20] [])).pc = 0x0101 := by decide

theorem test_lit : (after (plain [0x80, 0x12] [])).wst = [0x12] ∧ (after (plain [0x80, 0x12] [])).pc = 0x0102 := by decide
theorem test_lit_wraps :
    (after (placed 0xFFFF [(0xFFFF, 0x80)] [])).wst = [0x00] ∧
    (after (placed 0xFFFF [(0xFFFF, 0x80)] [])).pc = 0x0001 := by decide
theorem test_lit2 :
    (after (plain [0xa0, 0x12, 0x34] [])).wst = [0x12, 0x34] ∧ (after (plain [0xa0, 0x12, 0x34] [])).pc = 0x0103 := by decide
theorem test_lit2_wraps :
    (after (placed 0xFFFE [(0xFFFE, 0xa0), (0xFFFF, 0xab)] [])).wst = [0xAB, 0x00] ∧
    (after (placed 0xFFFE [(0xFFFE, 0xa0), (0xFFFF, 0xab)] [])).pc = 0x0001 := by decide
theorem test_lit2_overflow :
    (after (plain [0xa0, 0x12, 0x34] (tall 254 0x00))).run = .faulted .stackOverflow 0x0100 := by decide +kernel

theorem test_inc : (after (plain [0x01] [0x33, 0xFF])).wst = [0x33, 0x00] := by decide
theorem test_inc_full : (after (plain [0x01] (tall 255 0x10))).wst = tall 255 0x11 := by decide +kernel
theorem test_inc2 : (after (plain [0x21] [0x00, 0xFF])).wst = [0x01, 0x00] := by decide
theorem test_inc2_underflow : (after (plain [0x21] [0x05])).run = .faulted .stackUnderflow 0x0100 := by decide

theorem test_add : (after (plain [0x18] [0x09, 0xFF, 0x02])).wst = [0x09, 0x01] := by decide
theorem test_add_underflow : (after (plain [0x18] [0x01])).run = .faulted .stackUnderflow 0x0100 := by decide
theorem test_add2 : (after (plain [0x38] [0x00, 0xFF, 0x00, 0x01])).wst = [0x01, 0x00] := by decide
theorem test_add2_wraps : (after (plain [0x38] [0xFF, 0xFF, 0xFF, 0xFF])).wst = [0xFF, 0xFE] := by decide
theorem test_sub : (after (plain [0x19] [0x05, 0x03])).wst = [0x02] := by decide
theorem test_sub_wraps : (after (plain [0x19] [0x00, 0x01])).wst = [0xFF] := by decide
theorem test_sub2 : (after (plain [0x39] [0x01, 0x00, 0x00, 0x01])).wst = [0x00, 0xFF] := by decide
theorem test_sub2_wraps : (after (plain [0x39] [0x00, 0x01, 0x00, 0x02])).wst = [0xFF, 0xFF] := by decide

theorem test_deo :
    (after (plain [0x17] [0x41, 0x18])).io = [(0x18, 0x41)] ∧
    (after (plain [0x17] [0x41, 0x18])).events = [.writeByte 1 0x18 0x41 .ok] := by decide

/-- The device of slot 1 answers `UnknownPort`: the byte and the event stand (95_test_vectors.md 2.8). -/
theorem test_deo_unknown_port :
    let s := { machine (smallParams .none) [0x17] [0x41, 0x18] with replies := [reply .unknownPort] }
    (after s).run = .faulted .unknownPort 0x0100 ∧ (after s).io = [(0x18, 0x41)] ∧
    (after s).events = [.writeByte 1 0x18 0x41 .unknownPort] := by decide

theorem test_deo2 :
    (after (plain [0x37] [0x12, 0x34, 0x2E])).io = [(0x2E, 0x12), (0x2F, 0x34)] ∧
    (after (plain [0x37] [0x12, 0x34, 0x2E])).events = [.writeShort 2 0x2E 0x1234 .ok] := by decide
theorem test_deo2_crossing :
    (after (plain [0x37] [0x12, 0x34, 0x2F])).run = .faulted .crossDeviceShortWrite 0x0100 ∧
    (after (plain [0x37] [0x12, 0x34, 0x2F])).events = [] := by decide
theorem test_dei : (after { plain [0x16] [0x18] with io := [(0x18, 0x41)] }).wst = [0x41] := by decide
theorem test_dei_never_written : (after (plain [0x16] [0x18])).wst = [0x00] := by decide
theorem test_dei2_cross_slot :
    (after { plain [0x36] [0x2F] with io := [(0x2F, 0xAA), (0x30, 0xBB)] }).wst = [0xAA, 0xBB] := by decide
theorem test_dei2_bounds_before_push :
    (after (plain [0x36] (tall 255 0xFF))).run = .faulted .ioPageBounds 0x0100 := by decide +kernel

theorem test_illegal_return : (after (plain [0x58] [])).run = .faulted .unimplementedFeature 0x0100 := by decide
theorem test_illegal_keep : (after (plain [0x98] [])).run = .faulted .unimplementedFeature 0x0100 := by decide
theorem test_illegal_base : (after (plain [0x1A] [])).run = .faulted .unknownOpcode 0x0100 := by decide

/-- Under `own_slot_any` the slot's ports hold what the device left (R78). -/
theorem test_latch :
    let s := { machine (smallParams .ownSlotAny) [0x17] [0x41, 0x18] with replies := [reply .ok] }
    ioByte (after s) 0x18 = 0x55 ∧ ioByte (after s) 0x1F = 0x55 ∧ ioByte (after s) 0x20 = 0x00 := by decide

theorem test_withFetchWord :
    (after (State.reset.withFetchWord 24 0x3412a0)).wst = [0x12, 0x34] ∧
    (after (State.reset.withFetchWord 8 0x17)).run = .faulted .stackUnderflow 0x0100 := by decide

/-! ### The toolchain (95_test_vectors.md L1-4 to L1-8, P4, P5) -/

/-- The assembler with no spelling for sub-addresses. -/
def asm (source : String) : Except AsmError (List Byte) := assemble (fun _ => none) BaseCode.uxn source.toList

theorem test_asm_raw : asm "a0 ff 80" = .ok [0xa0, 0xff, 0x80] ∧ asm "a0ff80" = .ok [0xa0, 0xff, 0x80] := by decide
theorem test_asm_forward_label : asm ";arrow 00 @arrow ff" = .ok [0xa0, 0x01, 0x04, 0x00, 0xff] := by decide
theorem test_asm_pads : asm "|0102 $02 @label ;label" = .ok [0x00, 0x00, 0x00, 0x00, 0xa0, 0x01, 0x04] := by decide
theorem test_asm_zero_page : asm "|0000 10" = .error .zeroPageWriteViolation := by decide
theorem test_asm_program : asm "#01 #02 ADD DEO BRK" = .ok [0x80, 0x01, 0x80, 0x02, 0x18, 0x17, 0x00] := by decide
theorem test_asm_zero_page_label :
    asm "|0018 @Console\n|0100 #41 .Console DEO ;here BRK @here" =
      .ok [0x80, 0x41, 0x80, 0x18, 0x17, 0xa0, 0x01, 0x09, 0x00] := by decide
theorem test_asm_errors :
    asm "ADDk" = .error (.syntaxError 0) ∧ asm "00 ;x" = .error (.undefinedLabel ['x']) ∧
    asm "( open" = .error (.syntaxError 0) ∧ asm "00 nope" = .error (.syntaxError 3) ∧
    asm "00 &orphan" = .error (.syntaxError 3) := by decide

/-- A source with macro bodies, `<` and `>` standing for the braces. -/
def asmMacros (source : String) : Except AsmError (List Byte) :=
  assemble (fun _ => none) BaseCode.uxn
    (source.toList.map fun c => if c = '<' then openBrace else if c = '>' then closeBrace else c)

/-- Program P4. -/
theorem test_asm_macro :
    asmMacros "%EMIT < #18 DEO > #41 EMIT #0102 #2f DEO2 BRK" =
      .ok [0x80, 0x41, 0x80, 0x18, 0x17, 0xa0, 0x01, 0x02, 0x80, 0x2f, 0x37, 0x00] := by decide

/-- R117, R127, R129, R130: a body may hold a definition, which the expansion's one pass does not enter and which survives
a copy of the body. -/
theorem test_asm_nested_macro :
    asmMacros "%A < %B < 00 > 11 > 22" = .ok [0x22] ∧
    asmMacros "%A < %B < 00 > 11 > A" = .error .internalConsistency ∧
    asmMacros "%A < %B < 00 > 11 > B" = .error (.undefinedMacro ['B']) := by decide

/-- R128: an unfinished macro is an error at its own first word, the innermost one's where several are open. -/
theorem test_asm_unfinished_macro :
    asmMacros "00 %A" = .error (.syntaxError 3) ∧ asmMacros "00 %A < 11" = .error (.syntaxError 3) ∧
    asmMacros "%A < %B < 11" = .error (.syntaxError 5) ∧ asmMacros "00 >" = .error (.syntaxError 3) := by decide
theorem test_asm_sub_address :
    assemble (fun w => if w = ['?'] then some (['p'], ['c']) else none) BaseCode.uxn "@p 00 &c ?".toList =
      .ok [0x00, 0xa0, 0x01, 0x01] := by decide

/-! ### The host -/

/-- One load, then steps: a second load is refused, and a loaded 0x00 halts (R145, R237). -/
theorem test_host_loads_once :
    let h := Session.start Params.standard
    (hostRequest (.load [0x00]) (hostRequest (.load [0x00]) h).2).1 = .refused .loadNotAdmitted ∧
    (hostRequest .step (hostRequest (.load [0x00]) h).2).1 = .result .halt := by decide

/-- R10, R43, D8: after ADD on one byte the host reads the record and not the emptied stack; after BRK it reads the stack. -/
theorem test_host_reads_no_faulted_stack :
    (hostRequest .readState { phase := .stepping, core := after (plain [0x18] [5]) }).1 =
      .values (.faulted .stackUnderflow 0x0100) ∧
    (hostRequest .readState { phase := .stepping, core := after (plain [0x00] [5]) }).1 =
      .values (.values 0x0101 [5] [] [] [] .halted) := by decide

/-! ### The hypotheses of the statements are met, each clause at a boundary of its range -/

/-- Four-byte stacks, devices, no latching. -/
def small (code : List Byte) (wst : Stack) : State := machine (smallParams .none) code wst

theorem witness_DecodeOfEncodeIsInstr :
    BaseCode.uxn.valid ∧ Instr.wellFormed BaseCode.uxn (.lit2 0xFFFF) = true ∧
    Instr.wellFormed BaseCode.uxn (.illegalKeep true 0x1F) = true ∧
    Instr.wellFormed BaseCode.uxn (.illegalBase false 0x02) = true := by decide

theorem witness_EncodeOfDecodeIsBytes :
    BaseCode.uxn.valid ∧ Instr.wellFormed BaseCode.uxn .add = true ∧ encode BaseCode.uxn .add ++ [0x12, 0x34] = [0x18, 0x12, 0x34] ∧
    Instr.wellFormed BaseCode.uxn (.lit2 0x1234) = true ∧ encode BaseCode.uxn (.lit2 0x1234) ++ [] = [0xA0, 0x12, 0x34] := by
  decide

theorem witness_MnemonicEncodingRoundTrip :
    BaseCode.uxn.valid ∧ validFlags .lit { short := true, keep := true, ret := false } = true ∧
    validFlags .sub { short := true, keep := false, ret := false } = true := by decide

theorem witness_StepRunsDecodedInstruction :
    (placed 0xFFFF [(0xFFFF, 0xA0)] []).run = .running ∧
    decode BaseCode.uxn [0xA0, memRead (placed 0xFFFF [(0xFFFF, 0xA0)] []) 0x0000,
      memRead (placed 0xFFFF [(0xFFFF, 0xA0)] []) 0x0001] = .instr (.lit2 0x0000) [] := by decide

theorem witness_StoppedStepChangesNothing :
    (after (plain [0x00] [])).run ≠ .running ∧ (after (plain [0x18] [])).run ≠ .running ∧
    HostRequest.step ≠ .reset ∧ HostRequest.load [] ≠ .reset := by decide

theorem witness_ControlFlowIsSequential :
    ∃ t, exec (.lit2 0x0000) (placed 0xFFFF [(0xFFFF, 0xA0)] []) = .next t ∧ t.pc = 0x0002 := ⟨_, rfl, by decide⟩

theorem witness_HaltExactlyOnBrk :
    (plain [0x20] []).run = .running ∧ (∃ t, step (plain [0x20] []) = .next t) ∧
    (plain [0x18] []).run = .running ∧ ∃ t, step (plain [0x18] []) = .next t :=
  ⟨by decide, ⟨_, rfl⟩, by decide, ⟨_, rfl⟩⟩

theorem witness_BrkHalts : (placed 0xFFFF [] []).pc = 0xFFFF := by decide

theorem witness_LitPushesImmediate :
    (small [] [1, 2, 3]).wst.length < (smallParams .none).stackCapacity ∧
    (small [] [1, 2, 3, 4]).wst.length = (smallParams .none).stackCapacity ∧
    (small [] [1, 2]).wst.length + 2 ≤ (smallParams .none).stackCapacity ∧
    (small [] [1, 2, 3]).wst.length + 1 = (smallParams .none).stackCapacity := by decide

theorem witness_ImmediateFollowsOpcode :
    memRead (placed 0xFFFF [(0xFFFF, 0x80)] []) 0xFFFF = 0x80 ∧ memRead (small [0xA0] [1, 2]) 0x0100 = 0xA0 ∧
    (placed 0xFFFF [(0xFFFF, 0x80)] []).run = .running ∧ (small [0xA0] [1, 2]).run = .running ∧
    (small [0xA0] [1, 2]).wst.length + 2 ≤ (smallParams .none).stackCapacity ∧
    (placed 0xFFFF [(0xFFFF, 0x80)] []).wst.length < Params.standard.stackCapacity ∧
    (0x81 : Byte) ≠ 0x80 ∧ (0x81 : Byte) ≠ 0xA0 := by decide

theorem witness_IncrementsTopInPlace :
    (small [] [1, 2, 3, 0xFF]).wst = [1, 2, 3] ++ [0xFF] ∧ (small [] []).wst = [] ∧
    (small [] [0xFF, 0xFF]).wst = [] ++ [hi8 0xFFFF, lo8 0xFFFF] ∧ (small [] [7]).wst.length < 2 := by decide

/-- Also meets `ArithmeticWrapsAtWidth`. -/
theorem witness_FirstPoppedIsRightOperand :
    (small [] [1, 2, 3, 4]).wst.length ≤ (smallParams .none).stackCapacity ∧
    (small [] [1, 2, 3, 4]).wst = [1, 2] ++ [3, 4] ∧
    (small [] [1, 2, 3, 4]).wst = [] ++ [hi8 0x0102, lo8 0x0102, hi8 0x0304, lo8 0x0304] := by decide

theorem witness_DeoWritesPortAndNotifies :
    (small [] [0x41, 0x0F]).wst = [] ++ [0x41, 0x0F] ∧ slotOf 0x0F ∉ (smallParams .none).attached ∧
    (small [] [9, 0x41, 0xFF]).wst = [9] ++ [0x41, 0xFF] ∧ slotOf 0xFF ∈ (smallParams .none).attached ∧
    { small [] [9, 0x41, 0xFF] with replies := [reply .ok] }.replies = reply .ok :: [] ∧
    (small [] [9, 0x41, 0xFF]).replies = [] := by decide

theorem witness_DeoShortWritesTwoPorts :
    (small [] [0x12, 0x34, 0x0E]).wst = [] ++ [hi8 0x1234, lo8 0x1234, 0x0E] ∧ portIn 0x0E ≠ 0xF ∧
    slotOf 0x0E ∉ (smallParams .none).attached ∧
    (small [] [9, 0x12, 0x34, 0xFE]).wst = [9] ++ [hi8 0x1234, lo8 0x1234, 0xFE] ∧ portIn 0xFE ≠ 0xF ∧
    slotOf 0xFE ∈ (smallParams .none).attached ∧
    { small [] [9, 0x12, 0x34, 0xFE] with replies := [reply .unknownPort] }.replies = reply .unknownPort :: [] ∧
    (small [] [9, 0x12, 0x34, 0xFE]).replies = [] := by decide

theorem witness_CrossingShortWriteFaults :
    (small [] [0x12, 0x34, 0x0F]).wst = [] ++ [hi8 0x1234, lo8 0x1234, 0x0F] ∧ (0x0F : Byte).toNat % 16 = 15 ∧
    (small [] [0x12, 0x34, 0xFF]).wst = [] ++ [hi8 0x1234, lo8 0x1234, 0xFF] ∧ (0xFF : Byte).toNat % 16 = 15 := by decide

theorem witness_DeiPushesPortByte :
    (small [] [1, 2, 3, 0xFF]).wst.length ≤ (smallParams .none).stackCapacity ∧
    (small [] [1, 2, 3, 0xFF]).wst = [1, 2, 3] ++ [0xFF] := by decide

theorem witness_DeiShortPushesTwoPortBytes :
    (small [] [1, 2, 0xFE]).wst.length < (smallParams .none).stackCapacity ∧
    (small [] [1, 2, 0xFE]).wst = [1, 2] ++ [0xFE] ∧ (0xFF : Byte).toNat = (0xFE : Byte).toNat + 1 ∧
    (small [] [1, 2, 3, 0xFF]).wst = [1, 2, 3] ++ [0xFF] ∧
    (small [] [1, 2, 3, 0xFE]).wst = [1, 2, 3] ++ [0xFE] ∧ (0xFE : Byte) ≠ 0xFF ∧
    (small [] [1, 2, 3, 0xFE]).wst.length = (smallParams .none).stackCapacity := by decide

theorem witness_PortReadsNotifyNobody :
    (∃ t, exec .dei (small [] [0xFF]) = .next t ∧ t.run = .running) ∧
    ∃ t, exec .dei2 (small [] [0xFF]) = .next t ∧ t.run = .faulted .ioPageBounds 0x0100 :=
  ⟨⟨_, rfl, by decide⟩, ⟨_, rfl, by decide⟩⟩

theorem witness_ReadAfterWriteGivesValue :
    (small [] [0x41, 0x0F]).params.latch = .none ∧ (small [] [0x41, 0x0F]).wst = [] ++ [0x41, 0x0F] ∧
    (∃ t, exec .deo (small [] [0x41, 0x0F]) = .next t ∧
      { t with wst := [1, 2, 3, 0x0F] }.io = t.io ∧ { t with wst := [1, 2, 3, 0x0F] }.wst = [1, 2, 3] ++ [0x0F] ∧
      { t with wst := [1, 2, 3, 0x0F] }.wst.length ≤ t.params.stackCapacity) ∧
    (small [] [0x12, 0x34, 0x0E]).wst = [] ++ [hi8 0x1234, lo8 0x1234, 0x0E] ∧ portIn 0x0E ≠ 0xF ∧
    (∃ t, exec .deo2 (small [] [0x12, 0x34, 0x0E]) = .next t ∧
      { t with wst := [1, 2, 0x0E] }.io = t.io ∧ { t with wst := [1, 2, 0x0E] }.wst = [1, 2] ++ [0x0E] ∧
      { t with wst := [1, 2, 0x0E] }.wst.length < t.params.stackCapacity) :=
  ⟨by decide, by decide, ⟨_, rfl, rfl, rfl, by decide⟩, by decide, by decide, ⟨_, rfl, rfl, rfl, by decide⟩⟩

/-- The same with a device there that answers `UnknownPort`: the write stands in the faulted state (D24). -/
theorem witness_ReadAfterWriteGivesValue_unknownPort :
    slotOf 0x1F ∈ (smallParams .none).attached ∧
    (∃ t, exec .deo { small [] [0x41, 0x1F] with replies := [reply .unknownPort] } = .next t ∧
      t.run = .faulted .unknownPort 0x0100 ∧ ioByte t 0x1F = 0x41) ∧
    slotOf 0x1E ∈ (smallParams .none).attached ∧ portIn 0x1E ≠ 0xF ∧
    ∃ t, exec .deo2 { small [] [0x12, 0x34, 0x1E] with replies := [reply .unknownPort] } = .next t ∧
      t.run = .faulted .unknownPort 0x0100 ∧ ioByte t 0x1E = 0x12 ∧ ioByte t 0x1F = 0x34 :=
  ⟨by decide, ⟨_, rfl, by decide⟩, by decide, by decide, ⟨_, rfl, by decide⟩⟩

theorem witness_WritesStayInTheirSlot :
    (small [] [0x41, 0x1F]).wst = [0x41] ++ [0x1F] ∧ (0x20 : Byte).toNat / 16 ≠ (0x1F : Byte).toNat / 16 ∧
    (∃ t, exec .deo { small [] [0x41, 0x1F] with replies := [reply .ok] } = .next t ∧
      t.events.drop 0 = [.writeByte 1 0x1F 0x41 .ok]) ∧
    slotOf 0x0E ∉ (smallParams .none).attached ∧
    ∃ t, exec .deo2 (small [] [0x12, 0x34, 0x0E]) = .next t ∧ t.events.drop 0 = [.writeShort 0 0x0E 0x1234 .ok] :=
  ⟨by decide, by decide, ⟨_, rfl, by decide⟩, by decide, ⟨_, rfl, by decide⟩⟩

theorem witness_ShortsAreBigEndian :
    fetchInstr (small [0xA0, 0x12, 0x34] []) = .lit2 0x1234 ∧
    List.lookup ((['a'], none) : AsmText × Option AsmText) [((['a'], none), 0xFFFF)] = some 0xFFFF ∧ 0xFFFF < memSize ∧
    ((small [] [1, 2]).stack .wst).length + 2 ≤ (smallParams .none).stackCapacity ∧
    (small [] [1, 2]).stack .wst = [] ++ [1, 2] ∧
    (0x0F : Byte).toNat = (0x0E : Byte).toNat + 1 ∧ (smallParams .none).latch = .none ∧
    (∃ t, ioWrite2 0x0E 0x1234 (small [] []) = .ok () t) ∧
    ∃ t, ioWrite2 0x1E 0x1234 { small [] [] with replies := [reply .unknownPort] } = .raise .unknownPort t :=
  ⟨by decide, by decide, by decide, by decide, by decide, by decide, by decide, ⟨_, rfl⟩, ⟨_, rfl⟩⟩

theorem witness_PopUndoesPush :
    (∃ t, push .wst 7 (small [] [1, 2, 3]) = .ok () t) ∧ (∃ t, push2 .rst 0x1234 (small [] []) = .ok () t) ∧
    ((small [] [1, 2, 3]).stack .wst).length + 1 = (smallParams .none).stackCapacity :=
  ⟨⟨_, rfl⟩, ⟨_, rfl⟩, by decide⟩

theorem witness_PopTakesTheLastByte :
    (small [] [1, 2]).stack .wst = [1] ++ [2] ∧ (small [] []).stack .rst = [] ∧
    (pop .wst (advance 1 (small [] [5]))).andThen (fun _ u => .ok () u) = .ok () (advance 1 (small [] [])) ∧
    (advance 1 (small [] [])).stack .wst = [] := by decide

theorem witness_TooFewBytesUnderflow :
    (small [] []).wst.length < Instr.inc.needs ∧ (small [] [0x34, 0x2F]).wst.length < Instr.deo2.needs ∧
    (small [] [1, 2, 3]).wst.length < Instr.add2.needs := by decide

theorem witness_IllegalOpcodesFault :
    (small [0x40] []).run = .running ∧ (memRead (small [0x40] []) 0x0100).getLsbD 6 = true ∧
    (memRead (small [0x81] []) 0x0100).getLsbD 6 = false ∧ (memRead (small [0x81] []) 0x0100).getLsbD 7 = true ∧
    (memRead (small [0x81] []) 0x0100).toNat % 32 ≠ 0 ∧
    (memRead (small [0x1A] []) 0x0100).getLsbD 6 = false ∧ (memRead (small [0x1A] []) 0x0100).getLsbD 7 = false ∧
    baseField (memRead (small [0x1A] []) 0x0100) ∉ BaseCode.uxn.assigned := by decide

theorem witness_FaultsAreTheInstructionsOwn :
    (small [0x36] [1, 2, 3, 0xFF]).run = .running ∧
    (small [0x36] [1, 2, 3, 0xFF]).wst.length ≤ (smallParams .none).stackCapacity ∧
    ∃ t, step (small [0x36] [1, 2, 3, 0xFF]) = .next t ∧ t.run = .faulted .ioPageBounds 0x0100 :=
  ⟨by decide, by decide, ⟨_, rfl, by decide⟩⟩

theorem witness_NoDeviceNoUnknownPort :
    (plain [0x17] [0x41, 0x18]).params.attached = [] ∧ (plain [0x17] [0x41, 0x18]).run = .running ∧
    ∃ t, step (plain [0x17] [0x41, 0x18]) = .next t :=
  ⟨by decide, by decide, ⟨_, rfl⟩⟩

/-- DEO2 at the last port that does not cross, on a device that answers `Ok`; and DEI2 that just fits. -/
theorem witness_SuppliedStepIsSafe :
    (let s := { small [0x37] [9, 0x12, 0x34, 0x1E] with replies := [reply .ok] }
     s.run = .running ∧ fetchInstr s = .deo2 ∧ s.wst.length ≤ s.params.stackCapacity ∧
     Instr.deo2.needs ≤ s.wst.length ∧ s.wst.getLast? = some 0x1E ∧ portIn 0x1E ≠ 0xF ∧
     s.replies = reply .ok :: [] ∧ (reply .ok).result = .ok) ∧
    (let s := small [0x36] [1, 2, 0xFE]
     s.run = .running ∧ fetchInstr s = .dei2 ∧ s.wst.getLast? ≠ some 0xFF ∧
     s.wst.length - Instr.dei2.needs + Instr.dei2.leaves = s.params.stackCapacity) := by decide

/-- Also meets `HostKeepsWellFormed`. -/
theorem witness_StepKeepsWellFormed :
    (small [0x38] [1, 2, 3, 4]).wf ∧ ∃ t, step (small [0x38] [1, 2, 3, 4]) = .next t :=
  ⟨⟨by decide, by decide, by decide, by decide⟩, ⟨_, rfl⟩⟩

theorem witness_MemoryIsNotWritten :
    (∃ t, exec .deo2 (small [] [0x12, 0x34, 0x0E]) = .next t ∧ t.run = .running) ∧
    ∃ t, runFor 2 (small [0x80, 0x12, 0x00] []) = .next t ∧ t.run = .halted :=
  ⟨⟨_, rfl, by decide⟩, ⟨_, rfl, by decide⟩⟩

/-- A loaded program that writes to a port and halts. -/
theorem witness_ReturnStackIsReserved :
    (∃ t, runFor 4 (loadImage [0x80, 0x41, 0x80, 0x28, 0x17, 0x00] (resetCore (small [] [1]))) = .next t ∧
      t.run = .halted ∧ t.events = [.writeByte 2 0x28 0x41 .ok]) ∧
    ∃ t, step { small [0x18] [1, 2] with rst := [7] } = .next t ∧ t.run = .running :=
  ⟨⟨_, rfl, by decide, by decide⟩, ⟨_, rfl, by decide⟩⟩

theorem witness_OtherInstructionsChangeOnlyPcStackAndRun :
    Instr.dei2 ≠ .deo ∧ Instr.dei2 ≠ .deo2 ∧ ∃ t, exec .dei2 (small [] [0x0F]) = .next t ∧ t.wst = [0x00, 0x00] :=
  ⟨by decide, by decide, ⟨_, rfl, by decide⟩⟩

/-- A step that takes a listed reply; also meets `HistoryIsNotRead` and `ReturnStackIsNotRead`. -/
theorem witness_HistoryGrowsByNotifications :
    ∃ t, step { small [0x17] [0x41, 0x18] with replies := [reply .ok] } = .next t ∧ t.replies = [] ∧ t.draws = 0 :=
  ⟨_, rfl, by decide, by decide⟩

/-- LIT with another memory that agrees on its two bytes. -/
theorem witness_StepReadsOnlyItsOwnBytes :
    let s := plain [0x80, 0x12, 0x18] []
    let m : Memory := [(0x0100, 0x80), (0x0101, 0x12), (0x0102, 0x77)]
    s.run = .running ∧ fetchInstr s ≠ .deo ∧ fetchInstr s ≠ .deo2 ∧ (fetchInstr s).size = 2 ∧ m ≠ s.mem ∧
    (∀ k : Nat, k < 2 → m.read (s.pc + BitVec.ofNat 16 k).toNat = memRead s (s.pc + BitVec.ofNat 16 k)) ∧
    ∃ t, step s = .next t :=
  ⟨by decide, by decide, by decide, by decide, by decide, by decide, ⟨_, rfl⟩⟩

/-- DEO to a device whose reply is listed, with another memory that agrees on its one byte. -/
theorem witness_StepReadsOnlyItsOwnBytes_deo :
    let s := { small [0x17, 0x18] [0x41, 0x1F] with replies := [reply .ok] }
    let m : Memory := [(0x0100, 0x17), (0x0101, 0x77)]
    s.run = .running ∧ fetchInstr s = .deo ∧ s.wst.getLast? = some 0x1F ∧ slotOf 0x1F ∈ s.params.attached ∧
    s.replies ≠ [] ∧ m ≠ s.mem ∧
    (∀ k : Nat, k < 1 → m.read (s.pc + BitVec.ofNat 16 k).toNat = memRead s (s.pc + BitVec.ofNat 16 k)) ∧
    ∃ t, step s = .next t :=
  ⟨by decide, by decide, by decide, by decide, by decide, by decide, by decide, ⟨_, rfl⟩⟩

theorem witness_RunsStopAtTheZeroPage : (placed 0xFFFF [(0xFFFF, 0xA0)] []).zeroPageClear := by
  intro a ha
  have h256 : resetPc.toNat = 0x100 := rfl
  have : ¬ 0xFFFF = a.toNat := by omega
  simp [memRead, placed, Memory.read, this, unlistedByte]

/-- Also meets `LoadPlacesImageVerbatim`: the longest image, and the address after it. -/
theorem witness_LoadedRunsTerminate : (List.replicate 0xFF00 (0x01 : Byte)).length ≤ maxImage := by
  rw [List.length_replicate]; decide

theorem witness_LoadPlacesImageVerbatim :
    0 < [(0x12 : Byte)].length ∧ (0x00FF : Short).toNat < 0x0100 ∧
    0x0100 + [(0x12 : Byte)].length ≤ (0x0101 : Short).toNat := by decide

theorem witness_FirstFetchIsAtTheResetVector :
    BaseCode.uxn.valid ∧ Instr.wellFormed BaseCode.uxn (.lit2 0x1234) = true ∧
    (encode BaseCode.uxn (.lit2 0x1234) ++ [0x00]).length ≤ maxImage := by decide

theorem witness_LoadOnceBeforeTheFirstStep :
    (Session.start Params.standard).phase = .fresh ∧ [(0x00 : Byte)].length ≤ maxImage ∧
    maxImage < (List.replicate 0xFF01 (0x00 : Byte)).length ∧
    (hostRequest .step (Session.start Params.standard)).2.phase ≠ .fresh :=
  ⟨by decide, by decide, by rw [List.length_replicate]; decide, by decide⟩

/-- Two machines with different pasts and the same inputs. -/
theorem witness_NoStateSurvivesReset :
    (small [0x01] [1]) ≠ (small [0x02] [2]) ∧ (small [0x01] [1]).params = (small [0x02] [2]).params ∧
    (small [0x01] [1]).replies = (small [0x02] [2]).replies ∧ (small [0x01] [1]).draws = (small [0x02] [2]).draws := by
  decide

/-- A state of each run state, and two that differ in what the fault left alone. -/
theorem witness_StateReadShowsWhatIsObserved :
    (plain [0x18] [5]).run = .running ∧ (after (plain [0x00] [5])).run = .halted ∧
    (after (plain [0x18] [5])).run = .faulted .stackUnderflow 0x0100 ∧
    after (plain [0x18] []) ≠ after (plain [0x38] [5]) ∧
    (after (plain [0x18] [])).observation = (after (plain [0x38] [5])).observation := by decide

theorem witness_AssembledImageLoads :
    asm "#12" = .ok [0x80, 0x12] ∧ (Session.start Params.standard).phase = .fresh := by decide

theorem witness_ZeroPageIsNeverWritten :
    itemBytes BaseCode.uxn [] (.byte 0x10) = .ok [0x10] ∧ 0x00FF < 0x0100 ∧ 0x0000 ≤ 0x10000 ∧
    0x10000 ≤ 0x10000 ∧ 0xFFFF + (0x0001 : Short).toNat ≤ 0x10000 := by decide

theorem witness_RawBytesAssembleToThemselves : ([0xa0, 0xff, 0x80] : List Byte).length ≤ maxImage := by decide

end Sys2Proof.Tests
end

section
/-! PROOFS of 20_memory.md's statements: what an instruction may change, that it is never memory (R65), and that a read of the
I/O page changes nothing (R77). -/

namespace Sys2Proof.Machine

variable {α β : Type} {s t u : State}

/-! ### Instructions that write no port -/

/-- Every fault kind of R200, for lines of which only the state they end in matters. -/
def allFaults : List Fault :=
  [.stackUnderflow, .stackOverflow, .unknownOpcode, .unimplementedFeature, .unknownPort, .crossDeviceShortWrite, .ioPageBounds]

theorem mem_allFaults (k : Fault) : k ∈ allFaults := by cases k <;> decide

theorem advance_advance (m n : Nat) (s : State) : advance n (advance m s) = advance (m + n) s := by
  simp [advance, BitVec.ofNat_add, BitVec.add_assoc]

/-- `t` is `s` with `pc` moved on by `n`, another working stack no further over the capacity, and another run state. -/
def OnlyPcWstRun (n : Nat) (s t : State) : Prop :=
  ∃ (x : Stack) (run : RunState), t = { s with pc := s.pc + BitVec.ofNat 16 n, wst := x, run := run } ∧ Fits s x

theorem onlyPcWstRun_of_runLines {lines : State → Micro Unit} {n : Nat}
    (h : runLines lines s = .next t) (hl : OnlyWst allFaults (lines (advance 1 s)) (advance (1 + n) s)) :
    OnlyPcWstRun (1 + n) s t := by
  obtain ⟨x, run, rfl, hx, -⟩ := runLines_onlyWst hl h
  exact ⟨x, run, by simp [BitVec.ofNat_add, BitVec.add_assoc], hx⟩

/-- `byteOp` in any state, one over the capacity too, where its push can overflow. -/
theorem onlyWst_byteOp_any (f : Byte → Byte → Byte) (s : State) : OnlyWst allFaults (byteOp f s) s :=
  (onlyWst_pop (mem_allFaults _) s).andThen fun _ t => (onlyWst_pop (mem_allFaults _) t).andThen fun _ u =>
    onlyWst_push (mem_allFaults _) _ u

/-- `shortOp` in any state, one over the capacity too, where its push can overflow. -/
theorem onlyWst_shortOp_any (f : Short → Short → Short) (s : State) : OnlyWst allFaults (shortOp f s) s :=
  (onlyWst_pop2 (mem_allFaults _) s).andThen fun _ t => (onlyWst_pop2 (mem_allFaults _) t).andThen fun _ u =>
    onlyWst_push2 (mem_allFaults _) _ u

theorem execBrk_onlyPcWstRun (h : execBrk s = .next t) : OnlyPcWstRun 1 s t := by
  cases h; exact ⟨s.wst, .halted, rfl, id⟩

/-- An instruction other than DEO and DEO2 moves `pc` past itself and changes the working stack and the run state alone. -/
theorem exec_onlyPcWstRun {i : Instr} (hdeo : i ≠ .deo) (hdeo2 : i ≠ .deo2) (h : exec i s = .next t) :
    OnlyPcWstRun i.size s t := by
  cases i <;> simp only [exec, execLit, execLit2, execInc, execInc2, execDei, execDei2, execAdd, execAdd2, execSub, execSub2,
    execIllegalReturn, execIllegalKeep, execIllegalBase] at h
  case brk => exact execBrk_onlyPcWstRun h
  case brk2 => exact execBrk_onlyPcWstRun h
  case lit imm =>
    exact onlyPcWstRun_of_runLines (n := 1) h (by rw [← advance_advance]; exact onlyWst_push (mem_allFaults _) imm _)
  case lit2 imm =>
    exact onlyPcWstRun_of_runLines (n := 2) h (by rw [← advance_advance]; exact onlyWst_push2 (mem_allFaults _) imm _)
  case inc =>
    exact onlyPcWstRun_of_runLines (n := 0) h ((onlyWst_top (mem_allFaults _) _).andThen fun _ _ => onlyWst_setTop _ _)
  case inc2 =>
    exact onlyPcWstRun_of_runLines (n := 0) h ((onlyWst_top2 (mem_allFaults _) _).andThen fun _ _ => onlyWst_setTop2 _ _)
  case dei =>
    exact onlyPcWstRun_of_runLines (n := 0) h ((onlyWst_pop (mem_allFaults _) _).andThen fun _ _ =>
      (onlyWst_ioRead _ _).andThen fun _ _ => onlyWst_push (mem_allFaults _) _ _)
  case dei2 =>
    exact onlyPcWstRun_of_runLines (n := 0) h ((onlyWst_pop (mem_allFaults _) _).andThen fun _ _ =>
      (onlyWst_ioRead2 (mem_allFaults _) _ _).andThen fun _ _ => onlyWst_push2 (mem_allFaults _) _ _)
  case deo => exact absurd rfl hdeo
  case deo2 => exact absurd rfl hdeo2
  case add => exact onlyPcWstRun_of_runLines (n := 0) h (onlyWst_byteOp_any _ _)
  case add2 => exact onlyPcWstRun_of_runLines (n := 0) h (onlyWst_shortOp_any _ _)
  case sub => exact onlyPcWstRun_of_runLines (n := 0) h (onlyWst_byteOp_any _ _)
  case sub2 => exact onlyPcWstRun_of_runLines (n := 0) h (onlyWst_shortOp_any _ _)
  case illegalReturn keep short base => exact onlyPcWstRun_of_runLines (n := 0) h (onlyWst_raise_self (mem_allFaults _))
  case illegalKeep short base => exact onlyPcWstRun_of_runLines (n := 0) h (onlyWst_raise_self (mem_allFaults _))
  case illegalBase short base => exact onlyPcWstRun_of_runLines (n := 0) h (onlyWst_raise_self (mem_allFaults _))

/-! ### The fields that no instruction writes -/

/-- `t` has the memory (R65), the return stack (R36) and the parameters (R30) of `s`. -/
def SameFixed (s t : State) : Prop := t.mem = s.mem ∧ t.rst = s.rst ∧ t.params = s.params

theorem SameFixed.refl (s : State) : SameFixed s s := ⟨rfl, rfl, rfl⟩

theorem SameFixed.trans (h : SameFixed s t) (h' : SameFixed t u) : SameFixed s u :=
  ⟨h'.1.trans h.1, h'.2.1.trans h.2.1, h'.2.2.trans h.2.2⟩

theorem OnlyPcWstRun.sameFixed {n : Nat} (h : OnlyPcWstRun n s t) : SameFixed s t := by
  obtain ⟨x, run, rfl, -⟩ := h
  exact SameFixed.refl s

/-- The state lines of pseudocode end in, well or with a raise. -/
def Micro.endState : Micro α → State
  | .ok _ s => s
  | .raise _ s => s

theorem sameFixed_of_onlyWst {ks : List Fault} {m : Micro α} (h : OnlyWst ks m s) : SameFixed s m.endState := by
  cases m with
  | ok a t => obtain ⟨x, rfl, -⟩ := h.1 a t rfl; exact SameFixed.refl s
  | raise k t => obtain ⟨-, x, rfl, -⟩ := h.2 k t rfl; exact SameFixed.refl s

theorem SameFixed.andThen {m : Micro α} {next : α → State → Micro β} (hm : SameFixed s m.endState)
    (hn : ∀ a u, SameFixed u (next a u).endState) : SameFixed s (m.andThen next).endState := by
  cases m with
  | ok a u => exact hm.trans (hn a u)
  | raise k u => exact hm

theorem sameFixed_of_runLines {lines : State → Micro Unit} (hl : ∀ u, SameFixed u (lines u).endState)
    (h : runLines lines s = .next t) : SameFixed s t := by
  have hend : SameFixed s (lines (advance 1 s)).endState := hl (advance 1 s)
  rcases runLines_cases h with e | ⟨k, u, e, rfl⟩
  · rwa [e] at hend
  · rw [e] at hend; exact hend

/-- A device gets its views and gives an answer; it writes none of the three (R65, R78). -/
theorem notify_sameFixed (p : Byte) (v : NotifyValue) (s : State) : SameFixed s (notify p v s).endState := by
  obtain ⟨res, io, rs, d, e, -⟩ := notify_cases p v s
  rw [e]
  cases res <;> exact SameFixed.refl s

theorem ioWrite_sameFixed (p v : Byte) (s : State) : SameFixed s (ioWrite p v s).endState :=
  notify_sameFixed p (.byte v) (ioStore p v s)

theorem ioWrite2_sameFixed (p : Byte) (v : Short) (s : State) : SameFixed s (ioWrite2 p v s).endState := by
  unfold ioWrite2
  split
  · exact SameFixed.refl s
  · exact notify_sameFixed p (.short v) (ioStore (p + 1) (lo8 v) (ioStore p (hi8 v) s))

theorem pop_sameFixed (s : State) : SameFixed s (pop .wst s).endState :=
  sameFixed_of_onlyWst (onlyWst_pop (mem_allFaults _) s)

theorem pop2_sameFixed (s : State) : SameFixed s (pop2 .wst s).endState :=
  sameFixed_of_onlyWst (onlyWst_pop2 (mem_allFaults _) s)

theorem execDeo_sameFixed (h : execDeo s = .next t) : SameFixed s t :=
  sameFixed_of_runLines (fun u => (pop_sameFixed u).andThen fun p u => (pop_sameFixed u).andThen fun v u =>
    ioWrite_sameFixed p v u) h

theorem execDeo2_sameFixed (h : execDeo2 s = .next t) : SameFixed s t :=
  sameFixed_of_runLines (fun u => (pop_sameFixed u).andThen fun p u => (pop2_sameFixed u).andThen fun v u =>
    ioWrite2_sameFixed p v u) h

/-- No instruction writes memory, the return stack or the parameters. -/
theorem exec_sameFixed {i : Instr} (h : exec i s = .next t) : SameFixed s t := by
  by_cases hdeo : i = .deo
  · subst hdeo; exact execDeo_sameFixed h
  by_cases hdeo2 : i = .deo2
  · subst hdeo2; exact execDeo2_sameFixed h
  exact (exec_onlyPcWstRun hdeo hdeo2 h).sameFixed

theorem step_sameFixed (h : step s = .next t) : SameFixed s t := by
  by_cases hr : s.run = .running
  · rw [step_running hr] at h; exact exec_sameFixed h
  · rw [step_stopped hr] at h; cases h; exact SameFixed.refl s

theorem runFor_sameFixed {n : Nat} (h : runFor n s = .next t) : SameFixed s t :=
  runFor_keeps (fun _ _ hs hst => hs.trans (step_sameFixed hst)) n (SameFixed.refl s) h

/-! ### The statements -/

/-- All a short read of the I/O page can do: a value or a fault, in the state it was asked in (R76, R77). -/
theorem ioRead2_cases (p : Byte) (s : State) : (∃ v, ioRead2 p s = .ok v s) ∨ ∃ kind, ioRead2 p s = .raise kind s := by
  unfold ioRead2
  split
  · exact .inr ⟨_, rfl⟩
  · exact .inl ⟨_, rfl⟩

/-- Settles O23: neither bus read has a state of its own to answer, and DEI and DEI2 write no port. -/
theorem portReadsNotifyNobody : Obligations.PortReadsNotifyNobody := by
  refine ⟨fun p s => ⟨⟨_, rfl⟩, ioRead2_cases p s⟩, ?_⟩
  intro i hi s t h
  have hdeo : i ≠ .deo := by rcases hi with rfl | rfl <;> decide
  have hdeo2 : i ≠ .deo2 := by rcases hi with rfl | rfl <;> decide
  have hsize : i.size = 1 := by rcases hi with rfl | rfl <;> rfl
  obtain ⟨x, run, rfl, -⟩ := exec_onlyPcWstRun hdeo hdeo2 h
  exact ⟨x, run, by rw [hsize]; rfl⟩

/-- Settles O37: memory is one of the fields no instruction writes, and so no run does. -/
theorem memoryIsNotWritten : Obligations.MemoryIsNotWritten :=
  ⟨fun _ _ _ h => (exec_sameFixed h).1, fun _ _ _ h => (runFor_sameFixed h).1⟩

end Sys2Proof.Machine
end

section
/-! PROOFS of 30_encoding.md's statements: what the decoder makes of the assembler's bytes (R107), and which instructions read
the bytes after their opcode (R93). -/

namespace Sys2Proof.Machine

variable {bc : BaseCode} {s : State}

/-! ### Legal opcode bytes (R100, R118) -/

/-- A valid flag set never has the return flag, and adds no keep flag to the one LIT brings (R118), so that the byte is the
legal opcode of the mnemonic. -/
theorem encodeMnemonic_of_validFlags {m : Mnemonic} {f : FlagSet} (hf : validFlags m f = true) :
    encodeMnemonic bc m f = opcodeByte (m == .lit) false f.short (m.base bc) := by
  have hflags : f.ret = false ∧ (f.keep = false ∨ m = .lit) := by simpa [validFlags] using hf
  obtain ⟨hret, hkeep | rfl⟩ := hflags
  · simp [encodeMnemonic, hret, hkeep]
  · simp [encodeMnemonic, hret]

/-- An operation is decoded from its legal opcode byte alone: the converse of `classify_opcodeByte`, under any `BASE_CODE`. -/
theorem eq_opcodeByte_of_classify {b : Byte} {m : Mnemonic} {short : Bool} (h : classify bc b = .op m short) :
    b = opcodeByte (m == .lit) false short (m.base bc) := by
  rcases classify_cases bc b with ⟨-, hc⟩ | ⟨-, -, -, hc⟩ | ⟨-, -, -, hc⟩ | ⟨m', hr, hk, hb, hc⟩
  · cases hc.symm.trans h
  · cases hc.symm.trans h
  · cases hc.symm.trans h
  · cases hc.symm.trans h
    rw [← hr, ← hk, ← hb, opcodeByte_fields]

/-! ### The bytes after the opcode (R93) -/

theorem decodeWindow_lit (bc : BaseCode) (i1 i2 : Byte) : decodeWindow bc 0x80 i1 i2 = .lit i1 :=
  decodeWindow_of (classify_lit (by decide) (by decide) (by decide))

theorem decodeWindow_lit2 (bc : BaseCode) (i1 i2 : Byte) : decodeWindow bc 0xA0 i1 i2 = .lit2 (joinShort i1 i2) :=
  decodeWindow_of (classify_lit (by decide) (by decide) (by decide))

/-- Only a decoder answer that is LIT or LIT2 lets the instruction depend on the bytes after the opcode. -/
theorem instrOf_ignores_immediate {c : OpcodeClass} (hc : ∀ short, c ≠ .op .lit short) (b i1 i2 j1 j2 : Byte) :
    instrOf c b i1 i2 = instrOf c b j1 j2 := by
  cases c with
  | op m short =>
    cases m
    case lit => exact absurd rfl (hc short)
    all_goals cases short <;> rfl
  | returnFlagSet => rfl
  | keepFlagSet => rfl
  | unassignedBase => rfl

/-- LIT's opcode bytes are 0x80 and 0xA0 under every `BASE_CODE`. -/
theorem classify_ne_lit {b : Byte} (hlit : b ≠ 0x80) (hlit2 : b ≠ 0xA0) (short : Bool) : classify bc b ≠ .op .lit short := by
  intro h
  have hb := eq_opcodeByte_of_classify h
  cases short
  · exact hlit (hb.trans (show opcodeByte true false false 0 = 0x80 by decide))
  · exact hlit2 (hb.trans (show opcodeByte true false true 0 = 0xA0 by decide))

theorem fetchInstr_lit (h : memRead s s.pc = 0x80) : fetchInstr s = .lit (memRead s (s.pc + 1)) := by
  rw [fetchInstr, h, decodeWindow_lit]

theorem fetchInstr_lit2 (h : memRead s s.pc = 0xA0) :
    fetchInstr s = .lit2 (joinShort (memRead s (s.pc + 1)) (memRead s (s.pc + 2))) := by
  rw [fetchInstr, h, decodeWindow_lit2]

/-! ### The pushes of LIT and LIT2 with room (R150, R151) -/

theorem exec_lit_room (imm : Byte) (h : s.wst.length < s.params.stackCapacity) :
    exec (.lit imm) s = .next { s with pc := s.pc + 2, wst := s.wst ++ [imm] } := by
  have hpush : push .wst imm (advance 1 (advance 1 s)) = .ok () ((advance 2 s).setStack .wst (s.wst ++ [imm])) := by
    rw [advance_advance]
    exact push_room (Nat.ne_of_lt h)
  simp only [exec, execLit]
  exact runLines_ok hpush

theorem exec_lit2_room (imm : Short) (h : s.wst.length + 2 ≤ s.params.stackCapacity) :
    exec (.lit2 imm) s = .next { s with pc := s.pc + 3, wst := s.wst ++ [hi8 imm, lo8 imm] } := by
  have hpush : push2 .wst imm (advance 2 (advance 1 s)) =
      .ok () ((advance 3 s).setStack .wst (s.wst ++ [hi8 imm, lo8 imm])) := by
    rw [advance_advance]
    exact push2_room h
  simp only [exec, execLit2]
  exact runLines_ok hpush

/-! ### The statements -/

/-- Settles O4: the assembler's byte is the mnemonic's legal opcode, and each bit of it reads back as it was put in. -/
theorem mnemonicEncodingRoundTrip : Obligations.MnemonicEncodingRoundTrip := by
  intro bc hv m f hf
  refine ⟨?_, shortFlag_opcodeByte _ _ _ _, returnFlag_opcodeByte _ _ _ _, keepFlag_opcodeByte _ _ _ _⟩
  rw [encodeMnemonic_of_validFlags hf]
  exact classify_opcodeByte hv m f.short

/-- Settles O14: the fetch hands LIT and LIT2 the bytes after the opcode, they push them, and no other decoder answer looks
at those bytes. -/
theorem immediateFollowsOpcode : Obligations.ImmediateFollowsOpcode := by
  refine ⟨fun s hrun hop => ?_, fun s hrun hop => ?_, fun bc b hlit hlit2 i1 i2 j1 j2 => ?_⟩
  · have hstep := step_running hrun
    rw [fetchInstr_lit hop] at hstep
    exact ⟨hstep, fun hroom => hstep.trans (exec_lit_room _ hroom)⟩
  · have hstep := step_running hrun
    rw [fetchInstr_lit2 hop] at hstep
    refine ⟨⟨_, joinShort_toNat _ _, hstep⟩, fun hroom => ?_⟩
    rw [hstep, exec_lit2_room _ hroom, hi8_joinShort, lo8_joinShort]
  · exact instrOf_ignores_immediate (classify_ne_lit hlit hlit2) b i1 i2 j1 j2

end Sys2Proof.Machine
end

section
/-! PROOFS of 42_arithmetic.md's statements: which operand is the left one (R161). -/

namespace Sys2Proof.Machine

variable {s : State} {r : Stack}

/-! ### ADD and SUB on a stack that holds their operands: the lower value is the left operand -/

theorem exec_add_of_operands {a b : Byte} (hc : s.wst.length ≤ s.params.stackCapacity) (h : s.wst = r ++ [a, b]) :
    exec .add s = .next { s with pc := s.pc + 1, wst := r ++ [a + b] } :=
  runLines_byteOp (· + ·) hc h

theorem exec_sub_of_operands {a b : Byte} (hc : s.wst.length ≤ s.params.stackCapacity) (h : s.wst = r ++ [a, b]) :
    exec .sub s = .next { s with pc := s.pc + 1, wst := r ++ [a - b] } :=
  runLines_byteOp (· - ·) hc h

theorem exec_add2_of_operands {a b : Short} (hc : s.wst.length ≤ s.params.stackCapacity)
    (h : s.wst = r ++ [hi8 a, lo8 a, hi8 b, lo8 b]) :
    exec .add2 s = .next { s with pc := s.pc + 1, wst := r ++ [hi8 (a + b), lo8 (a + b)] } :=
  runLines_shortOp (· + ·) hc h

theorem exec_sub2_of_operands {a b : Short} (hc : s.wst.length ≤ s.params.stackCapacity)
    (h : s.wst = r ++ [hi8 a, lo8 a, hi8 b, lo8 b]) :
    exec .sub2 s = .next { s with pc := s.pc + 1, wst := r ++ [hi8 (a - b), lo8 (a - b)] } :=
  runLines_shortOp (· - ·) hc h

/-! ### The statement -/

/-- Settles O16: the four are `byteOp` and `shortOp`, which pop the right operand first and push one result into the room
the two operands leave. -/
theorem firstPoppedIsRightOperand : Obligations.FirstPoppedIsRightOperand :=
  ⟨fun _ _ _ _ hc h => ⟨exec_add_of_operands hc h, exec_sub_of_operands hc h⟩,
    fun _ _ _ _ hc h => ⟨exec_add2_of_operands hc h, exec_sub2_of_operands hc h⟩⟩

end Sys2Proof.Machine
end

section
/-! PROOFS of 70_reset_and_hazards.md's statements: what the first step after reset and load runs (R231), and that reset keeps
nothing of what the machine held before (R247). -/

namespace Sys2Proof.Machine

/-! ### The state a run begins in (R230, R235) -/

/-- After reset and load, the bytes from 0x0100 on are the image's, and zeros after its end. -/
theorem memRead_loadImage_resetCore (s : State) (image : List Byte) {k : Nat} (hk : 0x0100 + k < 0x10000) :
    memRead (loadImage image (resetCore s)) (BitVec.ofNat 16 (0x0100 + k)) = image.getD k 0 := by
  have haddr : (BitVec.ofNat 16 (0x0100 + k)).toNat = resetPc.toNat + k := Nat.mod_eq_of_lt hk
  have hempty : (resetCore s).mem = [] := rfl
  rw [memRead, loadImage_mem, hempty, haddr, Memory.read_writeBytes, Nat.add_sub_cancel_left]
  split
  · rfl
  · have hend : image.length ≤ k := by omega
    rw [List.getD_eq_default _ _ hend]
    rfl

theorem fetchInstr_loadImage_resetCore (s : State) (image : List Byte) :
    fetchInstr (loadImage image (resetCore s)) =
      decodeWindow s.params.baseCode (memRead (loadImage image (resetCore s)) 0x0100)
        (memRead (loadImage image (resetCore s)) 0x0101) (memRead (loadImage image (resetCore s)) 0x0102) := rfl

/-- The first fetch after reset and load is of the image's first three bytes. -/
theorem fetchInstr_loadImage_resetCore_eq_image (s : State) (image : List Byte) :
    fetchInstr (loadImage image (resetCore s)) =
      decodeWindow s.params.baseCode (image.getD 0 0) (image.getD 1 0) (image.getD 2 0) := by
  have hbyte (k : Nat) (hk : 0x0100 + k < 0x10000) := memRead_loadImage_resetCore s image hk
  rw [fetchInstr_loadImage_resetCore, ← hbyte 0 (by decide), ← hbyte 1 (by decide), ← hbyte 2 (by decide)]
  rfl

/-- Reset keeps the parameters, which are no state (R30), and the devices' replies and draws, which are not the machine's; all
else of the state it makes is the same for every machine. -/
theorem resetCore_congr {s s' : State} (hparams : s.params = s'.params) (hreplies : s.replies = s'.replies)
    (hdraws : s.draws = s'.draws) : resetCore s = resetCore s' := by
  rw [resetCore, hparams, hreplies, hdraws, ← resetCore]

/-! ### An encoded instruction and the bytes after it (R107) -/

/-- What an instruction's own immediate leaves open, the bytes after it fill in. -/
theorem getD_append_eq_getD {α : Type} (l r : List α) (n : Nat) (d : α) :
    (l ++ r).getD n d = l.getD n ((l ++ r).getD n d) := by
  by_cases hn : n < l.length
  · rw [List.getD_append _ _ _ _ hn, List.getD_eq_getElem _ _ hn, List.getD_eq_getElem _ _ hn]
  · exact (List.getD_eq_default _ _ (Nat.le_of_not_lt hn)).symm

/-- The decoder reads every well-formed instruction back from its own bytes, whatever stands in the bytes it does not use. -/
theorem decodeWindow_opcode_immediate {bc : BaseCode} (hv : bc.valid) {i : Instr} (hw : i.wellFormed bc = true) (x y : Byte) :
    decodeWindow bc (i.opcode bc) (i.immediate.getD 0 x) (i.immediate.getD 1 y) = i := by
  cases i with
  | brk => exact Laws.OpcodeWindow.brk bc hv hw x y
  | brk2 => exact Laws.OpcodeWindow.brk2 bc hv hw x y
  | lit imm => exact Laws.OpcodeWindow.lit imm bc hv hw x y
  | lit2 imm => exact Laws.OpcodeWindow.lit2 imm bc hv hw x y
  | inc => exact Laws.OpcodeWindow.inc bc hv hw x y
  | inc2 => exact Laws.OpcodeWindow.inc2 bc hv hw x y
  | dei => exact Laws.OpcodeWindow.dei bc hv hw x y
  | dei2 => exact Laws.OpcodeWindow.dei2 bc hv hw x y
  | deo => exact Laws.OpcodeWindow.deo bc hv hw x y
  | deo2 => exact Laws.OpcodeWindow.deo2 bc hv hw x y
  | add => exact Laws.OpcodeWindow.add bc hv hw x y
  | add2 => exact Laws.OpcodeWindow.add2 bc hv hw x y
  | sub => exact Laws.OpcodeWindow.sub bc hv hw x y
  | sub2 => exact Laws.OpcodeWindow.sub2 bc hv hw x y
  | illegalReturn keep short base => exact Laws.OpcodeWindow.illegalReturn keep short base bc hv hw x y
  | illegalKeep short base => exact Laws.OpcodeWindow.illegalKeep short base bc hv hw x y
  | illegalBase short base => exact Laws.OpcodeWindow.illegalBase short base bc hv hw x y

/-- Three bytes are enough to read back an instruction that more bytes, or none, follow. -/
theorem decodeWindow_encode_append {bc : BaseCode} (hv : bc.valid) {i : Instr} (hw : i.wellFormed bc = true)
    (rest : List Byte) :
    decodeWindow bc ((encode bc i ++ rest).getD 0 0) ((encode bc i ++ rest).getD 1 0) ((encode bc i ++ rest).getD 2 0) = i := by
  simp only [encode, List.cons_append, List.getD_cons_zero, List.getD_cons_succ]
  rw [getD_append_eq_getD _ _ 0, getD_append_eq_getD _ _ 1]
  exact decodeWindow_opcode_immediate hv hw _ _

/-- An image that begins with an instruction's encoding has that instruction fetched first. -/
theorem fetchInstr_loadImage_encode {s : State} (hv : s.params.baseCode.valid) {i : Instr}
    (hw : i.wellFormed s.params.baseCode = true) (rest : List Byte) :
    fetchInstr (loadImage (encode s.params.baseCode i ++ rest) (resetCore s)) = i := by
  rw [fetchInstr_loadImage_resetCore_eq_image]
  exact decodeWindow_encode_append hv hw rest

/-! ### The statements -/

/-- Settles O48: reset leaves the machine running at 0x0100 and load changes memory alone, so the first step runs what is
fetched there, which the decoder reads back from the image's first bytes. -/
theorem firstFetchIsAtTheResetVector : Obligations.FirstFetchIsAtTheResetVector := by
  have hstep (s : State) (image : List Byte) : step (loadImage image (resetCore s)) =
      exec (fetchInstr (loadImage image (resetCore s))) (loadImage image (resetCore s)) := step_running rfl
  refine ⟨fun s image => ⟨rfl, ?_⟩, fun s i rest hv hw _ => ?_⟩
  · rw [hstep, fetchInstr_loadImage_resetCore]
  · rw [hstep, fetchInstr_loadImage_encode hv hw rest]

/-- Settles O50: the two runs begin in one and the same state. -/
theorem noStateSurvivesReset : Obligations.NoStateSurvivesReset := by
  intro s s' image n hparams hreplies hdraws
  rw [resetCore_congr hparams hreplies hdraws]

end Sys2Proof.Machine
end

section
/-! PROOFS of 30_encoding.md's statements: the decoder and the encoder undo each other (R100, R107), and the byte ranges of the
fault classes (R102). -/

namespace Sys2Proof.Machine

variable {bc : BaseCode}

/-! ### Decoding an encoded instruction -/

theorem immediate_length (i : Instr) : i.immediate.length = i.size - 1 := by cases i <;> rfl

/-- What `decode` answers on a byte string that is long enough for the instruction it starts. -/
theorem decode_cons {b : Byte} {after : List Byte} {i : Instr}
    (hi : decodeWindow bc b (after.getD 0 0) (after.getD 1 0) = i) (hlen : i.size ≤ after.length + 1) :
    decode bc (b :: after) = .instr i (after.drop (i.size - 1)) := by
  simp only [decode, hi, if_neg (Nat.not_lt.2 hlen)]

/-- Settles O2: the decoder reads the instruction back from its own bytes, and what it drops is as long as the immediate. -/
theorem decodeOfEncodeIsInstr : Obligations.DecodeOfEncodeIsInstr := by
  intro bc hv i hw rest
  have hwindow : decodeWindow bc (i.opcode bc) ((i.immediate ++ rest).getD 0 0) ((i.immediate ++ rest).getD 1 0) = i := by
    rw [getD_append_eq_getD _ _ 0, getD_append_eq_getD _ _ 1]
    exact decodeWindow_opcode_immediate hv hw _ _
  have hlen := immediate_length i
  have hfits : i.size ≤ (i.immediate ++ rest).length + 1 := by
    rw [List.length_append]; omega
  rw [encode, List.cons_append, decode_cons hwindow hfits, ← hlen, List.drop_left]

/-! ### Encoding a decoded instruction -/

/-- The first three bytes of anything start an instruction (R91, R100). -/
theorem decode_three (bc : BaseCode) (b i1 i2 : Byte) :
    decode bc [b, i1, i2] = .instr (decodeWindow bc b i1 i2) ([i1, i2].drop ((decodeWindow bc b i1 i2).size - 1)) :=
  decode_cons rfl (size_le_three _)

/-- The operation a legal opcode byte names has that byte, and takes its immediate from the bytes after it. -/
theorem instrOf_op (bc : BaseCode) (m : Mnemonic) (short : Bool) (b i1 i2 : Byte) :
    (instrOf (.op m short) b i1 i2).wellFormed bc = true ∧
    (instrOf (.op m short) b i1 i2).opcode bc = opcodeByte (m == .lit) false short (m.base bc) ∧
    (instrOf (.op m short) b i1 i2).immediate = [i1, i2].take ((instrOf (.op m short) b i1 i2).size - 1) := by
  cases m
  case lit => cases short <;> simp [instrOf, Instr.wellFormed, Instr.opcode, Mnemonic.base, Instr.immediate, Instr.size]
  all_goals cases short <;> exact ⟨rfl, rfl, rfl⟩

/-- What the decoder reads is well formed, and its opcode and immediate are the bytes it was read from. -/
theorem decodeWindow_spec (bc : BaseCode) (b i1 i2 : Byte) :
    (decodeWindow bc b i1 i2).wellFormed bc = true ∧ (decodeWindow bc b i1 i2).opcode bc = b ∧
    (decodeWindow bc b i1 i2).immediate = [i1, i2].take ((decodeWindow bc b i1 i2).size - 1) := by
  have hfields := opcodeByte_fields b
  rcases classify_cases bc b with ⟨hr, hc⟩ | ⟨hr, hk, hb, hc⟩ | ⟨hr, hk, hb, hc⟩ | ⟨m, hr, hk, hb, hc⟩
  · rw [hr] at hfields
    rw [decodeWindow_of hc]
    exact ⟨rfl, hfields, rfl⟩
  · rw [hr, hk] at hfields
    rw [decodeWindow_of hc]
    exact ⟨by simpa [instrOf, Instr.wellFormed] using hb, hfields, rfl⟩
  · rw [hr, hk] at hfields
    rw [decodeWindow_of hc]
    exact ⟨by simpa [instrOf, Instr.wellFormed] using hb, hfields, rfl⟩
  · rw [hr, hk, hb] at hfields
    rw [decodeWindow_of hc]
    obtain ⟨hw, hop, himm⟩ := instrOf_op bc m (shortFlag b) b i1 i2
    exact ⟨hw, hop.trans hfields, himm⟩

/-- Settles O3: the decoder drops no bit of what it reads, and by O2 no two instructions are read from the same bytes. -/
theorem encodeOfDecodeIsBytes : Obligations.EncodeOfDecodeIsBytes := by
  refine ⟨fun bc b i1 i2 => ?_, fun bc hv b i1 i2 i j rest rest' hi hj ei ej => ?_⟩
  · obtain ⟨hw, hop, himm⟩ := decodeWindow_spec bc b i1 i2
    refine ⟨_, _, decode_three bc b i1 i2, hw, ?_⟩
    rw [encode, hop, himm, List.cons_append, List.take_append_drop]
  · have di := decodeOfEncodeIsInstr bc hv i hi rest
    have dj := decodeOfEncodeIsInstr bc hv j hj rest'
    rw [ei] at di
    rw [ej] at dj
    exact Decoded.instr.inj (di.symm.trans dj)

/-! ### The classes of opcode bytes -/

theorem classify_eq_returnFlagSet_iff (bc : BaseCode) (b : Byte) : classify bc b = .returnFlagSet ↔ returnFlag b = true := by
  rcases classify_cases bc b with ⟨hr, hc⟩ | ⟨hr, -, -, hc⟩ | ⟨hr, -, -, hc⟩ | ⟨m, hr, -, -, hc⟩ <;> simp [hr, hc]

theorem classify_eq_keepFlagSet_iff (bc : BaseCode) (b : Byte) :
    classify bc b = .keepFlagSet ↔ returnFlag b = false ∧ keepFlag b = true ∧ baseField b ≠ 0 := by
  rcases classify_cases bc b with ⟨hr, hc⟩ | ⟨hr, hk, hb, hc⟩ | ⟨hr, hk, -, hc⟩ | ⟨m, hr, hk, hb, hc⟩
  · simp [hr, hc]
  · simpa [hr, hk, hc] using hb
  · simp [hr, hk, hc]
  · cases m <;> simp_all [Mnemonic.base]

theorem base_mem_assigned (bc : BaseCode) (m : Mnemonic) : m.base bc ∈ bc.assigned := by
  cases m <;> simp [Mnemonic.base, BaseCode.assigned]

theorem classify_eq_unassignedBase_iff (bc : BaseCode) (b : Byte) :
    classify bc b = .unassignedBase ↔ returnFlag b = false ∧ keepFlag b = false ∧ baseField b ∉ bc.assigned := by
  rcases classify_cases bc b with ⟨hr, hc⟩ | ⟨hr, hk, -, hc⟩ | ⟨hr, hk, hb, hc⟩ | ⟨m, hr, -, hb, hc⟩
  · simp [hr, hc]
  · simp [hr, hk, hc]
  · simp [hr, hk, hb, hc]
  · simp [hc, hb, base_mem_assigned]

/-- Settles O1: twelve closed words, decoded. -/
theorem tableWordsDecodeAsListed : Obligations.TableWordsDecodeAsListed := by
  unfold Obligations.TableWordsDecodeAsListed
  decide

/-- Settles O5: each class is a condition on the byte's fields under every `BASE_CODE`; of the 256 bytes, those that meet it
are the ranges. -/
theorem opcodeMapByRange : Obligations.OpcodeMapByRange := by
  refine ⟨fun b => ?_, fun b => ?_, fun b => ?_, fun base hbase short => ?_⟩
  · rw [classify_eq_returnFlagSet_iff]; revert b; decide
  · rw [classify_eq_keepFlagSet_iff]; revert b; decide
  · have hlow : (returnFlag b = false ∧ keepFlag b = false) ↔ b < 0x40 := by revert b; decide
    rw [classify_eq_unassignedBase_iff, ← and_assoc, hlow]
    rfl
  · rw [classify_eq_unassignedBase_iff, returnFlag_opcodeByte, keepFlag_opcodeByte, baseField_opcodeByte]
    exact ⟨rfl, rfl, by revert base; decide⟩

end Sys2Proof.Machine
end

section
/-! PROOFS of 10_state.md's, 41_immediate.md's and 42_arithmetic.md's statements: the stack primitives (R38 to R42), the pushes
of LIT and LIT2, INC, and arithmetic at a mode's width. -/

namespace Sys2Proof.Machine

variable {α : Type} {i : Instr} {s : State} {r : Stack} {lines : State → Micro Unit}

/-! ### The lines of each instruction -/

theorem exec_brk (s : State) : exec .brk s = runLines (fun t => .ok () (halt t)) s := rfl

theorem exec_brk2 (s : State) : exec .brk2 s = runLines (fun t => .ok () (halt t)) s := rfl

theorem exec_lit (imm : Byte) (s : State) : exec (.lit imm) s = runLines (fun t => push .wst imm (advance 1 t)) s := rfl

theorem exec_lit2 (imm : Short) (s : State) : exec (.lit2 imm) s = runLines (fun t => push2 .wst imm (advance 2 t)) s := rfl

theorem exec_inc (s : State) : exec .inc s = runLines (fun t => (top .wst t).andThen fun x u => setTop .wst (x + 1) u) s := rfl

theorem exec_inc2 (s : State) :
    exec .inc2 s = runLines (fun t => (top2 .wst t).andThen fun x u => setTop2 .wst (x + 1) u) s := rfl

theorem exec_dei (s : State) : exec .dei s =
    runLines (fun t => (pop .wst t).andThen fun p u => (ioRead p u).andThen fun v w => push .wst v w) s := rfl

theorem exec_dei2 (s : State) : exec .dei2 s =
    runLines (fun t => (pop .wst t).andThen fun p u => (ioRead2 p u).andThen fun v w => push2 .wst v w) s := rfl

theorem exec_deo (s : State) : exec .deo s =
    runLines (fun t => (pop .wst t).andThen fun p u => (pop .wst u).andThen fun v w => ioWrite p v w) s := rfl

theorem exec_deo2 (s : State) : exec .deo2 s =
    runLines (fun t => (pop .wst t).andThen fun p u => (pop2 .wst u).andThen fun v w => ioWrite2 p v w) s := rfl

theorem exec_add (s : State) : exec .add s = runLines (byteOp fun a b => a + b) s := rfl

theorem exec_add2 (s : State) : exec .add2 s = runLines (shortOp fun a b => a + b) s := rfl

theorem exec_sub (s : State) : exec .sub s = runLines (byteOp fun a b => a - b) s := rfl

theorem exec_sub2 (s : State) : exec .sub2 s = runLines (shortOp fun a b => a - b) s := rfl

theorem exec_illegalReturn (keep short : Bool) (base : Base) (s : State) :
    exec (.illegalReturn keep short base) s = runLines (fun t => .raise .unimplementedFeature t) s := rfl

theorem exec_illegalKeep (short : Bool) (base : Base) (s : State) :
    exec (.illegalKeep short base) s = runLines (fun t => .raise .unimplementedFeature t) s := rfl

theorem exec_illegalBase (short : Bool) (base : Base) (s : State) :
    exec (.illegalBase short base) s = runLines (fun t => .raise .unknownOpcode t) s := rfl

/-! ### The stack primitives -/

/-- Settles O27: the two cases of a pop, and that a raise in the middle of an instruction's lines ends them. -/
theorem popTakesTheLastByte : Obligations.PopTakesTheLastByte := by
  refine ⟨fun _ _ _ _ h => pop_concat h, fun _ _ h => pop_empty h, fun i s u earlier later hearlier hempty => ?_⟩
  refine runLines_raise (t := u) ?_
  rw [hearlier, ok_andThen, pop_empty hempty, raise_andThen]

/-- Settles O28: after a push the stack ends in what was pushed, over what was there. -/
theorem popUndoesPush : Obligations.PopUndoesPush := by
  refine ⟨fun i b s t h => ?_, fun i v s t h => ?_, fun i v s h => ⟨_, push2_one_free h⟩⟩
  · obtain ⟨-, rfl⟩ := push_ok h
    rw [pop_concat (stack_setStack _ _ _), setStack_setStack, setStack_stack]
  · obtain ⟨-, -, rfl⟩ := push2_ok h
    rw [pop2_concat (stack_setStack _ _ _), setStack_setStack, setStack_stack, joinShort_hi8_lo8]

/-! ### Instructions that fault before they write anything -/

/-- Lines that raise with `pc` and the working stack alone changed leave no trace but the fault. -/
theorem faultsWith_of_raise {k : Fault} {n : Nat} {x : Stack} (hexec : exec i s = runLines lines s)
    (hraise : lines (advance 1 s) = .raise k ((advance n s).setStack .wst x)) : faultsWith i s k :=
  ⟨_, hexec.trans (runLines_raise hraise), rfl, rfl, rfl, rfl, rfl, rfl, rfl, rfl⟩

/-- The same where the lines raise in the state they reach, with `pc` alone changed. -/
theorem faultsWith_of_raise_self {k : Fault} {n : Nat} (hexec : exec i s = runLines lines s)
    (hraise : lines (advance 1 s) = .raise k (advance n s)) : faultsWith i s k :=
  faultsWith_of_raise (x := s.wst) hexec hraise

/-- The lines find too few bytes on the working stack, and have done nothing but pop (R39, D25). -/
def Underflows (m : Micro α) (s : State) : Prop :=
  ∃ x : Stack, x.length ≤ s.wst.length ∧ m = .raise .stackUnderflow (s.setStack .wst x)

theorem underflows_of_raise_self {m : Micro α} (h : m = .raise .stackUnderflow s) : Underflows m s := ⟨s.wst, le_rfl, h⟩

/-- Lines that begin with a pop underflow at it, or where the later ones do on the bytes that are left. -/
theorem underflows_pop_andThen {next : Byte → State → Micro α} {n : Nat} (hs : s.wst.length < n + 1)
    (hnext : ∀ b u, u.wst.length < n → Underflows (next b u) u) : Underflows ((pop .wst s).andThen next) s := by
  rcases List.eq_nil_or_concat' s.wst with e | ⟨r, b, e⟩
  · rw [pop_empty (i := .wst) e]
    exact underflows_of_raise_self rfl
  · have hr : r.length < n := by
      rw [e, List.length_append, List.length_singleton] at hs; omega
    rw [pop_concat (i := .wst) e, ok_andThen]
    obtain ⟨x, hle, hx⟩ := hnext b (s.setStack .wst r) hr
    refine ⟨x, hle.trans ?_, by rw [hx, setStack_setStack]⟩
    rw [setStack_wst_self, e, List.length_append]
    exact Nat.le_add_right _ _

/-- The same for a two-byte pop. -/
theorem underflows_pop2_andThen {next : Short → State → Micro α} {n : Nat} (hs : s.wst.length < n + 2)
    (hnext : ∀ v u, u.wst.length < n → Underflows (next v u) u) : Underflows ((pop2 .wst s).andThen next) s := by
  by_cases hshort : s.wst.length < 2
  · exact ⟨[], Nat.zero_le _, by rw [pop2_short (i := .wst) hshort, raise_andThen]⟩
  · obtain ⟨r, hi, lo, e⟩ := exists_concat2 (x := s.wst) (by omega)
    have hr : r.length < n := by
      rw [e, List.length_append] at hs
      simp only [List.length_cons, List.length_nil] at hs
      omega
    rw [pop2_concat (i := .wst) e, ok_andThen]
    obtain ⟨x, hle, hx⟩ := hnext (joinShort hi lo) (s.setStack .wst r) hr
    refine ⟨x, hle.trans ?_, by rw [hx, setStack_setStack]⟩
    rw [setStack_wst_self, e, List.length_append]
    exact Nat.le_add_right _ _

/-- One pop on an empty stack, whatever comes after it. -/
theorem underflows_pop_last {next : Byte → State → Micro α} (hs : s.wst.length < 1) :
    Underflows ((pop .wst s).andThen next) s :=
  underflows_pop_andThen (n := 0) hs fun _ _ h => absurd h (Nat.not_lt_zero _)

/-- One two-byte pop on a stack of less than two bytes, whatever comes after it. -/
theorem underflows_pop2_last {next : Short → State → Micro α} (hs : s.wst.length < 2) :
    Underflows ((pop2 .wst s).andThen next) s :=
  underflows_pop2_andThen (n := 0) hs fun _ _ h => absurd h (Nat.not_lt_zero _)

theorem underflows_byteOp {f : Byte → Byte → Byte} (hs : s.wst.length < 2) : Underflows (byteOp f s) s :=
  underflows_pop_andThen (n := 1) hs fun _ _ => underflows_pop_last

theorem underflows_shortOp {f : Short → Short → Short} (hs : s.wst.length < 4) : Underflows (shortOp f s) s :=
  underflows_pop2_andThen (n := 2) hs fun _ _ => underflows_pop2_last

theorem top_short (hs : s.wst.length < 1) : top .wst s = .raise .stackUnderflow s :=
  top_empty (i := .wst) (List.length_eq_zero_iff.1 (Nat.lt_one_iff.1 hs))

/-- The lines of an instruction that finds fewer bytes than it takes underflow before they do anything else. -/
theorem exec_lines_underflow (hs : s.wst.length < i.needs) :
    ∃ lines, exec i s = runLines lines s ∧ Underflows (lines (advance 1 s)) (advance 1 s) := by
  cases i <;> simp only [Instr.needs, Nat.not_lt_zero] at hs
  case inc => exact ⟨_, exec_inc s, underflows_of_raise_self (by rw [top_short (s := advance 1 s) hs, raise_andThen])⟩
  case inc2 =>
    exact ⟨_, exec_inc2 s, underflows_of_raise_self (by rw [top2_short (i := .wst) (s := advance 1 s) hs, raise_andThen])⟩
  case dei => exact ⟨_, exec_dei s, underflows_pop_last hs⟩
  case dei2 => exact ⟨_, exec_dei2 s, underflows_pop_last hs⟩
  case deo => exact ⟨_, exec_deo s, underflows_pop_andThen (n := 1) hs fun _ _ => underflows_pop_last⟩
  case deo2 => exact ⟨_, exec_deo2 s, underflows_pop_andThen (n := 2) hs fun _ _ => underflows_pop2_last⟩
  case add => exact ⟨_, exec_add s, underflows_byteOp hs⟩
  case sub => exact ⟨_, exec_sub s, underflows_byteOp hs⟩
  case add2 => exact ⟨_, exec_add2 s, underflows_shortOp hs⟩
  case sub2 => exact ⟨_, exec_sub2 s, underflows_shortOp hs⟩

/-- What is left of the state when an instruction underflows: some of the bytes it found are popped (D25). -/
theorem exec_underflow (hs : s.wst.length < i.needs) :
    ∃ x : Stack, x.length ≤ s.wst.length ∧
      exec i s = .next { s with pc := s.pc + 1, wst := x, run := .faulted .stackUnderflow s.pc } := by
  obtain ⟨lines, hexec, x, hle, hraise⟩ := exec_lines_underflow hs
  exact ⟨x, hle, hexec.trans (runLines_raise hraise)⟩

/-- Settles O29: the bytes an instruction takes are popped, or looked at, before anything else it does. -/
theorem tooFewBytesUnderflow : Obligations.TooFewBytesUnderflow := by
  intro i s hs
  obtain ⟨x, -, hexec⟩ := exec_underflow hs
  exact ⟨_, hexec, rfl, rfl, rfl, rfl, rfl, rfl, rfl, rfl⟩

/-! ### LIT and LIT2 -/

/-- Settles O13: with room by the pushes, which succeed; without it by the first push of LIT2 or the second. -/
theorem litPushesImmediate : Obligations.LitPushesImmediate := by
  refine ⟨fun imm s h => exec_lit_room imm h, fun imm s h => ?_, fun imm s h => exec_lit2_room imm h, fun imm s h => ?_⟩
  · exact faultsWith_of_raise_self (n := 2) (exec_lit imm s) (by rw [advance_advance]; exact push_full h)
  · rcases h with h | h
    · exact faultsWith_of_raise_self (n := 3) (exec_lit2 imm s) (by rw [advance_advance]; exact push2_full h)
    · exact faultsWith_of_raise (n := 3) (exec_lit2 imm s) (by rw [advance_advance]; exact push2_one_free h)

/-! ### INC and INC2 -/

theorem exec_inc_of_operand {x : Byte} (h : s.wst = r ++ [x]) :
    exec .inc s = .next { s with pc := s.pc + 1, wst := r ++ [x + 1] } := by
  have htop : top .wst (advance 1 s) = .ok x (advance 1 s) := top_concat (i := .wst) h
  rw [exec_inc]
  refine runLines_ok ?_
  rw [htop, ok_andThen, setTop_concat (i := .wst) (s := advance 1 s) h]
  rfl

theorem exec_inc2_of_operand {x : Short} (h : s.wst = r ++ [hi8 x, lo8 x]) :
    exec .inc2 s = .next { s with pc := s.pc + 1, wst := r ++ [hi8 (x + 1), lo8 (x + 1)] } := by
  have htop : top2 .wst (advance 1 s) = .ok x (advance 1 s) :=
    (top2_concat (i := .wst) (s := advance 1 s) h).trans (by rw [joinShort_hi8_lo8])
  rw [exec_inc2]
  refine runLines_ok ?_
  rw [htop, ok_andThen, setTop2_concat (i := .wst) (s := advance 1 s) h]
  rfl

/-- Settles O15: in place on a stack that holds the operand, and O29 where it does not. -/
theorem incrementsTopInPlace : Obligations.IncrementsTopInPlace := by
  refine ⟨fun _ _ _ h => exec_inc_of_operand h, fun s h => ?_, fun _ _ _ h => exec_inc2_of_operand h, fun s h => ?_⟩
  · exact tooFewBytesUnderflow .inc s (by rw [h]; exact Nat.zero_lt_one)
  · exact tooFewBytesUnderflow .inc2 s h

/-! ### Arithmetic at the mode's width (R160) -/

/-- A short is 256 times its high byte and its low byte (R13). -/
theorem hi8_lo8_toNat (v : Short) : (hi8 v).toNat * 256 + (lo8 v).toNat = v.toNat := by
  rw [← joinShort_toNat, joinShort_hi8_lo8]

/-- Settles O17: the operations are `BitVec`'s, which wrap, and a short's two bytes are its two digits to base 256. -/
theorem arithmeticWrapsAtWidth : Obligations.ArithmeticWrapsAtWidth := by
  refine ⟨fun s r a b hc h => ?_, fun s r a1 a0 b1 b0 hc h => ?_⟩
  · have hinc : s.wst = (r ++ [a]) ++ [b] := by simp [h]
    refine ⟨a + b, a - b, b + 1, exec_add_of_operands hc h, BitVec.toNat_add a b, exec_sub_of_operands hc h, ?_, ?_,
      BitVec.toNat_add b 1⟩
    · rw [BitVec.toNat_sub]; omega
    · rw [exec_inc_of_operand hinc, List.append_assoc]; rfl
  · let a := joinShort a1 a0
    let b := joinShort b1 b0
    have hab : s.wst = r ++ [hi8 a, lo8 a, hi8 b, lo8 b] := by simp [a, b, h]
    have hb : s.wst = (r ++ [a1, a0]) ++ [hi8 b, lo8 b] := by simp [b, h]
    have ha : a.toNat = a1.toNat * 256 + a0.toNat := joinShort_toNat a1 a0
    have hb' : b.toNat = b1.toNat * 256 + b0.toNat := joinShort_toNat b1 b0
    refine ⟨hi8 (a + b), lo8 (a + b), hi8 (a - b), lo8 (a - b), hi8 (b + 1), lo8 (b + 1), exec_add2_of_operands hc hab, ?_,
      exec_sub2_of_operands hc hab, ?_, ?_, ?_⟩
    · rw [hi8_lo8_toNat, BitVec.toNat_add, ha, hb']
    · rw [hi8_lo8_toNat, BitVec.toNat_sub, ha, hb']; omega
    · rw [exec_inc2_of_operand hb, List.append_assoc]; rfl
    · rw [hi8_lo8_toNat, BitVec.toNat_add, hb']; rfl

end Sys2Proof.Machine
end

section
/-! PROOFS of 43_device_io.md's and 20_memory.md section 4's statements: what DEI, DEI2, DEO and DEO2 do to the stack, the I/O
page and the history, and the byte order of shorts (R63). -/

namespace Sys2Proof.Machine

variable {i : Instr} {s t u : State} {r : Stack} {p q : Byte} {v : NotifyValue} {io : Memory}

/-! ### Port reads -/

/-- DEI on a stack within the capacity: the popped port leaves room for the byte. -/
theorem exec_dei_of_operand (hc : s.wst.length ≤ s.params.stackCapacity) (h : s.wst = r ++ [p]) :
    exec .dei s = .next { s with pc := s.pc + 1, wst := r ++ [ioByte s p] } := by
  have hroom : r.length ≠ s.params.stackCapacity := by
    rw [h, List.length_append, List.length_singleton] at hc; omega
  exact (execDei_eq h).trans (runLines_ok (push_room (i := .wst) hroom))

theorem toNat_last_port : (0xFF : Byte).toNat = 255 := rfl

/-- Below port 0xFF a short read takes the bytes of a port and the next, the first the high one (R76, D17). -/
theorem ioRead2_pair (hq : q.toNat = p.toNat + 1) (s : State) :
    ioRead2 p s = .ok (joinShort (ioByte s p) (ioByte s q)) s := by
  have hlast : p ≠ 0xFF := by
    rintro rfl
    have := q.isLt
    rw [toNat_last_port] at hq
    omega
  have hnext : p + 1 = q := by
    have := q.isLt
    have hsum : (p + 1).toNat = (p.toNat + 1) % 256 := BitVec.toNat_add p 1
    exact BitVec.eq_of_toNat_eq (by omega)
  rw [ioRead2, if_neg hlast, hnext]

theorem exec_dei2_of_operand (hc : s.wst.length < s.params.stackCapacity) (h : s.wst = r ++ [p])
    (hq : q.toNat = p.toNat + 1) :
    exec .dei2 s = .next { s with pc := s.pc + 1, wst := r ++ [ioByte s p, ioByte s q] } := by
  have hroom : r.length + 2 ≤ s.params.stackCapacity := by
    rw [h, List.length_append, List.length_singleton] at hc; omega
  refine (execDei2_eq h).trans (runLines_ok ?_)
  rw [ioRead2_pair hq, ok_andThen, push2_room (i := .wst) (s := { s with pc := s.pc + 1, wst := r }) hroom, hi8_joinShort,
    lo8_joinShort]
  rfl

/-- Settles O21: the pop of the port makes the room for the byte. -/
theorem deiPushesPortByte : Obligations.DeiPushesPortByte := fun _ _ _ hc h => exec_dei_of_operand hc h

/-- Settles O22: port 0xFF faults in the read, before the push, and a stack that was full has room for one byte of the two. -/
theorem deiShortPushesTwoPortBytes : Obligations.DeiShortPushesTwoPortBytes := by
  refine ⟨fun s r p q hc h hq => exec_dei2_of_operand hc h hq, fun s r h => ?_, fun s r p h hp hfull => ?_⟩
  · have hread : ioRead2 0xFF { s with pc := s.pc + 1, wst := r } = .raise .ioPageBounds { s with pc := s.pc + 1, wst := r } :=
      if_pos rfl
    refine faultsWith_of_raise (n := 1) (x := r) (execDei2_eq h) ?_
    rw [hread, raise_andThen]
    rfl
  · have honefree : r.length + 1 = s.params.stackCapacity := by
      rw [← hfull, h, List.length_append, List.length_singleton]
    have hread : ioRead2 p { s with pc := s.pc + 1, wst := r } = .ok _ { s with pc := s.pc + 1, wst := r } := if_neg hp
    refine faultsWith_of_raise (n := 1) (x := r ++ [hi8 (joinShort (ioByte s p) (ioByte s (p + 1)))]) (execDei2_eq h) ?_
    rw [hread, ok_andThen]
    exact push2_one_free (i := .wst) honefree

/-! ### Port writes: the I/O page before the device is notified -/

/-- The I/O page with a short at a port: the high byte there, the low byte after it (R73, D17). -/
def shortWritten (p : Byte) (v : Short) (io : Memory) : Memory :=
  (io.write p.toNat (hi8 v)).write (p + 1).toNat (lo8 v)

theorem read_shortWritten (hp : portIn p ≠ 0xF) (v : Short) (io : Memory) (q : Byte) :
    (shortWritten p v io).read q.toNat =
      if q.toNat = p.toNat then hi8 v else if q.toNat = p.toNat + 1 then lo8 v else io.read q.toNat := by
  rw [shortWritten, Memory.read_write, Memory.read_write, toNat_succ_port hp]
  by_cases hlow : q.toNat = p.toNat + 1
  · rw [if_pos hlow, if_neg (by omega), if_pos hlow]
  · rw [if_neg hlow, if_neg hlow]

/-- A bus write touches the I/O page at ports of its own slot alone, and keeps the page's canonical form. -/
def SlotWrite (p : Byte) (io io' : Memory) : Prop :=
  (∀ q : Byte, slotOf q ≠ slotOf p → io'.read q.toNat = io.read q.toNat) ∧ (io.wfIo → io'.wfIo)

theorem slotWrite_write (p v : Byte) (io : Memory) : SlotWrite p io (io.write p.toNat v) := by
  refine ⟨fun q hq => Memory.read_write_other _ _ ?_, fun h => Memory.write_wf _ h p.isLt⟩
  exact fun e => hq (congrArg slotOf (BitVec.eq_of_toNat_eq e))

theorem SlotWrite.trans {io' io'' : Memory} (h : SlotWrite p io io') (h' : SlotWrite p io' io'') : SlotWrite p io io'' :=
  ⟨fun q hq => (h'.1 q hq).trans (h.1 q hq), h'.2 ∘ h.2⟩

theorem slotWrite_shortWritten (hp : portIn p ≠ 0xF) (v : Short) (io : Memory) : SlotWrite p io (shortWritten p v io) := by
  have hlow := slotWrite_write (p + 1) (lo8 v) (io.write p.toNat (hi8 v))
  rw [SlotWrite, slotOf_succ_port hp] at hlow
  exact (slotWrite_write p (hi8 v) io).trans hlow

theorem slotWrite_latchedIo (p : Byte) (latch : DeviceLatch) (latched : Vector Byte 16) (io : Memory) :
    SlotWrite p io (latchedIo latch (slotOf p) latched io) :=
  ⟨fun _ hq => read_latchedIo_other hq, latchedIo_wf⟩

/-- The state in which DEO and DEO2 notify: operands popped, bytes written. -/
def beforeNotify (x : Stack) (io : Memory) (s : State) : State := { s with pc := s.pc + 1, wst := x, io := io }

theorem exec_deo_of_operands {b : Byte} (h : s.wst = r ++ [b, p]) :
    exec .deo s = runLines (fun _ => notify p (.byte b) (beforeNotify r (s.io.write p.toNat b) s)) s :=
  execDeo_eq h

theorem exec_deo2_of_operands {w : Short} (h : s.wst = r ++ [hi8 w, lo8 w, p]) (hp : portIn p ≠ 0xF) :
    exec .deo2 s = runLines (fun _ => notify p (.short w) (beforeNotify r (shortWritten p w s.io) s)) s := by
  refine (execDeo2_eq h).trans ?_
  simp only [ioWrite2, if_neg hp]
  rfl

theorem exec_deo2_crossing {w : Short} (h : s.wst = r ++ [hi8 w, lo8 w, p]) (hp : portIn p = 0xF) :
    exec .deo2 s = .next { s with pc := s.pc + 1, wst := r, run := .faulted .crossDeviceShortWrite s.pc } :=
  (execDeo2_eq h).trans (runLines_raise (t := { s with pc := s.pc + 1, wst := r }) (if_pos hp))

/-- Settles O20: the check for a crossing comes before the first byte and the notification. -/
theorem crossingShortWriteFaults : Obligations.CrossingShortWriteFaults := by
  intro s r w p h hlast
  have hp : portIn p = 0xF := BitVec.eq_of_toNat_eq (by rw [portIn_toNat, hlast]; rfl)
  exact ⟨_, exec_deo2_crossing h hp, rfl, rfl, rfl, rfl, rfl, rfl, rfl, rfl⟩

/-! ### Port writes: the answer -/

/-- The run state after a device's answer to a notification made by the instruction at `a` (R75, R205). -/
def runAfter (res : NotifyResult) (a : Short) (run : RunState) : RunState :=
  match res with
  | .ok => run
  | .unknownPort => .faulted .unknownPort a

/-- How an instruction whose last line is a notification ends, by the answer. -/
theorem runLines_of_answer {m : Micro Unit} {res : NotifyResult}
    (h : m = match res with | .ok => .ok () u | .unknownPort => .raise .unknownPort u) :
    runLines (fun _ => m) s = .next { u with run := runAfter res s.pc u.run } := by
  cases res with
  | ok => exact runLines_ok h
  | unknownPort => exact runLines_raise h

/-- The byte at port `q` after the device of the slot of `p` gave the reply `d`, where it was `f q` before (R78). -/
def portAfter (s : State) (p : Byte) (d : DeviceReply) (f : Byte → Byte) (q : Byte) : Byte :=
  if s.params.latch = .ownSlotAny ∧ slotOf q = slotOf p then d.latched[(portIn q).toNat]'(portIn q).isLt else f q

theorem read_latchedIo_eq_portAfter {f : Byte → Byte} (hio : ∀ q : Byte, io.read q.toNat = f q) (s : State) (p : Byte)
    (d : DeviceReply) (q : Byte) :
    (latchedIo s.params.latch (slotOf p) d.latched io).read q.toNat = portAfter s p d f q := by
  rw [read_latchedIo, portAfter, hio]

section answers
variable {f : Byte → Byte} (h : exec i s = runLines (fun _ => notify p v (beforeNotify r io s)) s)
  (hio : ∀ q : Byte, io.read q.toNat = f q)
include h hio

/-- An empty slot answers `Ok` (R74, D12). -/
theorem exec_notify_absent (ha : slotOf p ∉ s.params.attached) : ∃ io' : Memory,
    exec i s = .next { s with pc := s.pc + 1, wst := r, io := io', events := s.events ++ [eventOf p v .ok] } ∧
    ∀ q : Byte, io'.read q.toNat = f q :=
  ⟨io, h.trans (runLines_ok (notify_absent (s := beforeNotify r io s) ha)), hio⟩

/-- A device gives the next listed reply (R75, R78). -/
theorem exec_notify_listed {d : DeviceReply} {ds : List DeviceReply} (ha : slotOf p ∈ s.params.attached)
    (hd : s.replies = d :: ds) : ∃ io' : Memory,
    exec i s = .next { s with
      pc := s.pc + 1, wst := r, io := io', events := s.events ++ [eventOf p v d.result], replies := ds,
      run := runAfter d.result s.pc s.run } ∧
    ∀ q : Byte, io'.read q.toNat = portAfter s p d f q :=
  ⟨_, h.trans (runLines_of_answer (notify_listed (s := beforeNotify r io s) ha hd)), read_latchedIo_eq_portAfter hio s p d⟩

/-- With no reply listed a device gives the free one, for a notification that shows it the bytes just written (log entry 5). -/
theorem exec_notify_free (ha : slotOf p ∈ s.params.attached) (hd : s.replies = []) :
    ∃ (io' view : Memory) (d : DeviceReply),
      d = Config.freeReply s.draws { ioView := view, memView := s.mem, port := p, value := v } ∧
      (∀ q : Byte, view.read q.toNat = f q) ∧
      exec i s = .next { s with
        pc := s.pc + 1, wst := r, io := io', events := s.events ++ [eventOf p v d.result], draws := s.draws + 1,
        run := runAfter d.result s.pc s.run } ∧
      ∀ q : Byte, io'.read q.toNat = portAfter s p d f q :=
  ⟨_, io, _, rfl, hio, h.trans (runLines_of_answer (notify_free (s := beforeNotify r io s) ha hd)),
    read_latchedIo_eq_portAfter hio s p _⟩

end answers

/-- Settles O18: the bus write puts the byte at its port, and the three clauses are the three answers. -/
theorem deoWritesPortAndNotifies : Obligations.DeoWritesPortAndNotifies := by
  intro s r b p h
  have hexec := exec_deo_of_operands h
  have hio (q : Byte) := read_write_port s.io p q b
  exact ⟨exec_notify_absent hexec hio, fun _ _ => exec_notify_listed hexec hio, exec_notify_free hexec hio⟩

/-- Settles O19: as O18, with the short's two bytes at the port and the next. -/
theorem deoShortWritesTwoPorts : Obligations.DeoShortWritesTwoPorts := by
  intro s r w p h hp
  have hexec := exec_deo2_of_operands h hp
  have hio := read_shortWritten hp w s.io
  exact ⟨exec_notify_absent hexec hio, fun _ _ => exec_notify_listed hexec hio, exec_notify_free hexec hio⟩

/-! ### All a port write can do -/

/-- What a notification does to the inputs of a step: at most one listed reply is taken, or one free one drawn where none is
listed (R75, D35; log entry 5). -/
def InputsMoved (s : State) (rs : List DeviceReply) (d : Nat) : Prop :=
  ∃ used : List DeviceReply, s.replies = used ++ rs ∧ used.length + (d - s.draws) ≤ 1 ∧ s.draws ≤ d ∧
    (d ≠ s.draws → s.replies = [])

theorem InputsMoved.refl (s : State) : InputsMoved s s.replies s.draws :=
  ⟨[], rfl, by simp, le_rfl, fun h => absurd rfl h⟩

theorem inputsMoved_of_takeReply {n : Notification} {d : DeviceReply} {rs : List DeviceReply} {k : Nat}
    (h : takeReply n s = (d, { s with replies := rs, draws := k })) : InputsMoved s rs k := by
  cases hs : s.replies with
  | nil =>
    rw [takeReply_free hs, Prod.mk.injEq] at h
    obtain ⟨-, hstate⟩ := h
    have hrs : rs = [] := (congrArg State.replies hstate).symm.trans hs
    have hk : k = s.draws + 1 := (congrArg State.draws hstate).symm
    exact ⟨[], by rw [hs, hrs]; rfl, by simp [hk], by omega, fun _ => hs⟩
  | cons d' ds =>
    rw [takeReply_listed hs, Prod.mk.injEq] at h
    obtain ⟨-, hstate⟩ := h
    have hrs : rs = ds := (congrArg State.replies hstate).symm
    have hk : k = s.draws := (congrArg State.draws hstate).symm
    exact ⟨[d'], by rw [hs, hrs]; rfl, by simp [hk], hk.ge, fun hne => absurd hk hne⟩

/-- `t` is `s` after an instruction popped its operands down to `x`, brought the I/O page to `io` and notified the slot of
port `p`. -/
def Notified (p : Byte) (v : NotifyValue) (x : Stack) (io : Memory) (s t : State) : Prop :=
  ∃ (res : NotifyResult) (io' : Memory) (rs : List DeviceReply) (d : Nat),
    t = { s with
      pc := s.pc + 1, wst := x, io := io', events := s.events ++ [eventOf p v res], replies := rs, draws := d,
      run := runAfter res s.pc s.run } ∧
    SlotWrite p io io' ∧ (s.params.latch = .none → io' = io) ∧ InputsMoved s rs d ∧
    (slotOf p ∉ s.params.attached → res = .ok ∧ rs = s.replies ∧ d = s.draws)

theorem notified_of_exec (h : exec i s = runLines (fun _ => notify p v (beforeNotify r io s)) s) (ht : exec i s = .next t) :
    Notified p v r io s t := by
  obtain ⟨res, io', rs, d, hnotify, hanswer⟩ := notify_cases p v (beforeNotify r io s)
  have hrun := h.trans (runLines_of_answer hnotify)
  rw [ht] at hrun
  cases hrun
  refine ⟨res, io', rs, d, rfl, ?_⟩
  rcases hanswer with ⟨-, hres, hio, hrs, hd⟩ | ⟨ha, reply, htake, -, hio⟩
  · subst hio hrs hd
    exact ⟨⟨fun _ _ => rfl, id⟩, fun _ => rfl, InputsMoved.refl s, fun _ => ⟨hres, rfl, rfl⟩⟩
  · subst hio
    refine ⟨slotWrite_latchedIo p _ _ _, fun hlatch => ?_, inputsMoved_of_takeReply (s := beforeNotify r io s) htake,
      fun hno => absurd ha hno⟩
    rw [show (beforeNotify r io s).params.latch = .none from hlatch, latchedIo_none]
    rfl

/-- All DEO can do. -/
theorem exec_deo_cases (h : exec .deo s = .next t) :
    (∃ x : Stack, x.length ≤ s.wst.length ∧
      t = { s with pc := s.pc + 1, wst := x, run := .faulted .stackUnderflow s.pc }) ∨
    ∃ (r : Stack) (b p : Byte), s.wst = r ++ [b, p] ∧ Notified p (.byte b) r (s.io.write p.toNat b) s t := by
  by_cases hs : s.wst.length < 2
  · obtain ⟨x, hx, hexec⟩ := exec_underflow (i := .deo) hs
    rw [h] at hexec
    cases hexec
    exact .inl ⟨x, hx, rfl⟩
  · obtain ⟨r, b, p, e⟩ := exists_concat2 (x := s.wst) (by omega)
    exact .inr ⟨r, b, p, e, notified_of_exec (exec_deo_of_operands e) h⟩

/-- A stack with a short on it. -/
theorem exists_concat_short {x : Stack} (h : 2 ≤ x.length) : ∃ (r : Stack) (w : Short), x = r ++ [hi8 w, lo8 w] := by
  obtain ⟨r, hi, lo, e⟩ := exists_concat2 h
  exact ⟨r, joinShort hi lo, by rw [e, hi8_joinShort, lo8_joinShort]⟩

/-- A stack with DEO2's operands on it. -/
theorem exists_concat_short_port {x : Stack} (h : 3 ≤ x.length) :
    ∃ (r : Stack) (w : Short) (p : Byte), x = r ++ [hi8 w, lo8 w, p] := by
  obtain ⟨y, p, rfl⟩ := exists_concat (x := x) (by omega)
  obtain ⟨r, w, rfl⟩ := exists_concat_short (x := y) (by simp only [List.length_append, List.length_singleton] at h; omega)
  exact ⟨r, w, p, by simp⟩

/-- All DEO2 can do. -/
theorem exec_deo2_cases (h : exec .deo2 s = .next t) :
    (∃ (x : Stack) (k : Fault), x.length ≤ s.wst.length ∧ (k = .stackUnderflow ∨ k = .crossDeviceShortWrite) ∧
      t = { s with pc := s.pc + 1, wst := x, run := .faulted k s.pc }) ∨
    ∃ (r : Stack) (w : Short) (p : Byte), s.wst = r ++ [hi8 w, lo8 w, p] ∧ portIn p ≠ 0xF ∧
      Notified p (.short w) r (shortWritten p w s.io) s t := by
  by_cases hs : s.wst.length < 3
  · obtain ⟨x, hx, hexec⟩ := exec_underflow (i := .deo2) hs
    rw [h] at hexec
    cases hexec
    exact .inl ⟨x, _, hx, .inl rfl, rfl⟩
  obtain ⟨r, w, p, e⟩ := exists_concat_short_port (x := s.wst) (by omega)
  by_cases hp : portIn p = 0xF
  · have hexec := exec_deo2_crossing e hp
    rw [h] at hexec
    cases hexec
    exact .inl ⟨r, _, by rw [e, List.length_append]; exact Nat.le_add_right _ _, .inr rfl, rfl⟩
  · exact .inr ⟨r, w, p, e, hp, notified_of_exec (exec_deo2_of_operands e hp) h⟩

/-- All DEO and DEO2 can do: fault with only `pc` and the stack changed, or write in the slot of the port on top and notify. -/
theorem exec_write_cases (hi : i = .deo ∨ i = .deo2) (h : exec i s = .next t) :
    (∃ (x : Stack) (k : Fault), x.length ≤ s.wst.length ∧ k ∈ i.faultKinds ∧ k ≠ .unknownPort ∧
      t = { s with pc := s.pc + 1, wst := x, run := .faulted k s.pc }) ∨
    ∃ (x : Stack) (p : Byte) (v : NotifyValue) (io : Memory), x.length ≤ s.wst.length ∧ s.wst.getLast? = some p ∧
      SlotWrite p s.io io ∧ Notified p v x io s t := by
  rcases hi with rfl | rfl
  · rcases exec_deo_cases h with ⟨x, hx, ht⟩ | ⟨r, b, p, e, hn⟩
    · exact .inl ⟨x, _, hx, by decide, by decide, ht⟩
    · exact .inr ⟨r, p, _, _, by simp [e], by simp [e], slotWrite_write p b s.io, hn⟩
  · rcases exec_deo2_cases h with ⟨x, k, hx, hk, ht⟩ | ⟨r, w, p, e, hp, hn⟩
    · refine .inl ⟨x, k, hx, ?_, ?_, ht⟩ <;> rcases hk with rfl | rfl <;> decide
    · exact .inr ⟨r, p, _, _, by simp [e], by simp [e], slotWrite_shortWritten hp w s.io, hn⟩

/-- Settles O25: a fault before the notification leaves the I/O page alone, and a notification's writes, event and reply are
its slot's. -/
theorem writesStayInTheirSlot : Obligations.WritesStayInTheirSlot := by
  intro i hi s t r p hs h
  rcases exec_write_cases hi h with ⟨x, k, -, -, -, rfl⟩ | ⟨x, p', v, io, -, hlast, hio, hn⟩
  · exact ⟨fun _ _ => rfl, by simp, fun _ => ⟨rfl, rfl⟩⟩
  · obtain rfl : p' = p := by simpa [hs] using hlast.symm
    obtain ⟨res, io', rs, d, rfl, hio', -, -, habsent⟩ := hn
    refine ⟨fun q hq => (hio.trans hio').1 q fun e => hq ?_, fun e he => ?_, fun ha => (habsent ha).2⟩
    · rw [← slotOf_toNat, ← slotOf_toNat, e]
    · rw [List.drop_left, List.mem_singleton] at he
      subst he
      cases v <;> exact ⟨rfl, slotOf_toNat p'⟩

/-! ### What was written is read back (R240) -/

/-- Settles O24: with no latching the I/O page after the write is the one the device was shown. -/
theorem readAfterWriteGivesValue : Obligations.ReadAfterWriteGivesValue := by
  refine ⟨fun s t r b p hlatch hs h => ?_, fun s t r w p hlatch hs hp h u x hio hu hroom => ?_⟩
  · obtain ⟨res, io', rs, d, rfl, -, hsame, -⟩ := notified_of_exec (exec_deo_of_operands hs) h
    have hread : io'.read p.toNat = b := by rw [hsame hlatch, Memory.read_write_self]
    refine ⟨hread, fun u x hio hu hroom => ?_⟩
    have hbyte : ioByte u p = b := by rw [ioByte, hio]; exact hread
    rw [exec_dei_of_operand hroom hu, hbyte]
  · obtain ⟨res, io', rs, d, rfl, -, hsame, -⟩ := notified_of_exec (exec_deo2_of_operands hs hp) h
    have hpage : u.io = shortWritten p w s.io := hio.trans (hsame hlatch)
    have hnext := toNat_succ_port hp
    have hhigh : ioByte u p = hi8 w := by rw [ioByte, hpage, read_shortWritten hp, if_pos rfl]
    have hlow : ioByte u (p + 1) = lo8 w := by
      rw [ioByte, hpage, read_shortWritten hp, if_neg (by omega), if_pos hnext]
    rw [exec_dei2_of_operand hroom hu hnext, hhigh, hlow]

/-! ### Byte order (R63) -/

/-- A short write that is not refused leaves the two bytes it wrote, whatever the answer, where devices latch nothing. -/
theorem io_of_ioWrite2 {w : Short} (hp : portIn p ≠ 0xF) (hlatch : s.params.latch = .none) :
    (ioWrite2 p w s).endState.io = shortWritten p w s.io := by
  rw [ioWrite2, if_neg hp]
  obtain ⟨res, io', rs, d, hnotify, hanswer⟩ :=
    notify_cases p (.short w) (ioStore (p + 1) (lo8 w) (ioStore p (hi8 w) s))
  have hio : io' = shortWritten p w s.io := by
    rcases hanswer with ⟨-, -, hio, -, -⟩ | ⟨-, reply, -, -, hio⟩
    · exact hio
    · rw [hio, show (ioStore (p + 1) (lo8 w) (ioStore p (hi8 w) s)).params.latch = .none from hlatch, latchedIo_none]
      rfl
  rw [hnotify, ← hio]
  cases res <;> rfl

theorem endState_of_ioWrite2 {w : Short} (h : ioWrite2 p w s = .ok () t ∨ ioWrite2 p w s = .raise .unknownPort t) :
    portIn p ≠ 0xF ∧ (ioWrite2 p w s).endState = t := by
  constructor
  · intro hp
    rw [ioWrite2, if_pos hp] at h
    rcases h with h | h <;> cases h
  · rcases h with h | h <;> rw [h] <;> rfl

theorem eq_of_instrOf_eq_lit2 {c : OpcodeClass} {b i1 i2 : Byte} {imm : Short} (h : instrOf c b i1 i2 = .lit2 imm) :
    imm = joinShort i1 i2 := by
  cases c with
  | op m short =>
    cases m
    case lit =>
      cases short
      · cases h
      · exact (Instr.lit2.inj h).symm
    all_goals cases short <;> cases h
  | returnFlagSet => cases h
  | keepFlagSet => cases h
  | unassignedBase => cases h

/-- Settles O26: each clause is a short joined from, or split into, its high and its low byte. -/
theorem shortsAreBigEndian : Obligations.ShortsAreBigEndian := by
  refine ⟨fun s imm h => ?_, fun bc key table a ha hlt => ?_, fun i w s hroom => ?_, fun i s r hi lo h => ?_,
    fun s t p q w hq hlatch h => ?_, fun s p q hq => ?_⟩
  · have himm := eq_of_instrOf_eq_lit2 h
    have haddr : s.pc + 1 + 1 = s.pc + 2 := BitVec.add_assoc s.pc 1 1
    refine ⟨?_, by rw [himm, joinShort_toNat]⟩
    rw [memRead2, haddr, himm]
  · refine ⟨hi8 (BitVec.ofNat 16 a), lo8 (BitVec.ofNat 16 a), ?_, ?_⟩
    · rw [hi8_lo8_toNat, BitVec.toNat_ofNat]
      exact (Nat.mod_eq_of_lt hlt).symm
    · simp only [addressBytes, ha, if_pos hlt]
      rfl
  · exact ⟨hi8 w, lo8 w, (hi8_lo8_toNat w).symm, push2_room hroom⟩
  · exact ⟨joinShort hi lo, joinShort_toNat hi lo, pop2_concat h⟩
  · obtain ⟨hp, rfl⟩ := endState_of_ioWrite2 h
    have hnext : q.toNat ≠ p.toNat := by omega
    rw [ioByte, ioByte, io_of_ioWrite2 hp hlatch, read_shortWritten hp, read_shortWritten hp, if_pos rfl, if_neg hnext,
      if_pos hq, hi8_lo8_toNat]
  · exact ⟨_, ioRead2_pair hq s, joinShort_toNat _ _⟩

end Sys2Proof.Machine
end

section
/-! PROOFS of 40_step_and_control.md's and 60_exceptions.md's statements: what a step runs, where it leaves `pc` and the run
state, and which faults it can end in. -/

namespace Sys2Proof.Machine

variable {i : Instr} {s t : State} {r : Stack} {ks : List Fault}

/-! ### The step cycle (R140, R143) -/

/-- Settles O6: the three bytes at `pc` are what the fetch decodes, and any three bytes decode. -/
theorem stepRunsDecodedInstruction : Obligations.StepRunsDecodedInstruction := by
  refine ⟨fun s i rest hrun h => ?_, fun s => ?_⟩
  · obtain ⟨hi, -⟩ := Decoded.instr.inj ((decode_three _ _ _ _).symm.trans h)
    rw [step_running hrun, fetchInstr, hi]
  · exact ⟨_, _, (decodeWindow_spec _ _ _ _).1, decode_three _ _ _ _⟩

/-- A load either changes nothing or puts an image that fits into memory (R236, R237). -/
theorem requestLoad_cases (image : List Byte) (h : Session) :
    (requestLoad image h).2 = h ∨ (image.length ≤ maxImage ∧ (requestLoad image h).2.core = loadImage image h.core) := by
  unfold requestLoad
  cases h.phase with
  | fresh =>
    by_cases hlong : maxImage < image.length
    · exact .inl (by simp only [if_pos hlong])
    · exact .inr ⟨Nat.le_of_not_lt hlong, by simp only [if_neg hlong]⟩
  | loaded => exact .inl rfl
  | stepping => exact .inl rfl

/-- Settles O7: the machine's step in a stopped state answers that state, a load writes memory alone, and a state read nothing. -/
theorem stoppedStepChangesNothing : Obligations.StoppedStepChangesNothing := by
  have hrequest (h : Session) (hr : h.core.run ≠ .running) :
      hostRequest .step h = (.result h.core.stepResult, { phase := .stepping, core := h.core }) := by
    simp only [hostRequest, requestStep, step_stopped hr]
  refine ⟨fun s hr => step_stopped hr, fun q h hr hq => ?_, fun h hr => by rw [hrequest h hr]; exact ⟨rfl, rfl⟩⟩
  cases q with
  | reset => exact absurd rfl hq
  | load image =>
    rcases requestLoad_cases image h with e | ⟨-, e⟩
    · exact congrArg (·.core.run) e
    · exact (congrArg State.run e).trans (loadImage_run image h.core)
  | step => rw [hrequest h hr]
  | readState => rfl

theorem exec_next (i : Instr) (s : State) : ∃ t, exec i s = .next t := by
  obtain ⟨lines, hlines⟩ := exec_lines i
  rw [hlines]
  exact runLines_next lines s

theorem step_next (s : State) : ∃ t, step s = .next t := by
  by_cases hr : s.run = .running
  · rw [step_running hr]; exact exec_next _ s
  · exact ⟨s, step_stopped hr⟩

/-- Settles O10: every instruction answers a next state, and none writes the parameters. -/
theorem everyStepHasNextState : Obligations.EveryStepHasNextState := by
  intro s
  obtain ⟨t, h⟩ := step_next s
  exact ⟨t, h, (step_sameFixed h).2.2⟩

/-! ### BRK -/

theorem exec_brk_eq (s : State) : exec .brk s = .next { s with pc := s.pc + 1, run := .halted } := rfl

/-- Settles O11: BRK's one line is the halt, and a halted machine steps to itself. -/
theorem brkHalts : Obligations.BrkHalts := by
  refine ⟨fun _ => rfl, fun s => ⟨_, exec_brk_eq s, rfl, rfl, step_stopped nofun, fun h => ?_⟩⟩
  show s.pc + 1 = 0
  rw [h]
  rfl

/-- Settles O12: BRK2 has the lines of BRK. -/
theorem brkShortFlagHaltsToo : Obligations.BrkShortFlagHaltsToo := ⟨fun _ => rfl, fun s => ⟨rfl, exec_brk_eq s⟩⟩

/-! ### `pc` -/

/-- Every instruction moves `pc` by its size: all but DEO and DEO2 whatever they do, those two in each of their cases. -/
theorem exec_pc (h : exec i s = .next t) : t.pc = s.pc + BitVec.ofNat 16 i.size := by
  by_cases hw : i = .deo ∨ i = .deo2
  · have hsize : i.size = 1 := by rcases hw with rfl | rfl <;> rfl
    rw [hsize]
    rcases exec_write_cases hw h with ⟨x, k, -, -, -, rfl⟩ | ⟨x, p, v, io, -, -, -, res, io', rs, d, rfl, -⟩ <;> rfl
  · rw [not_or] at hw
    obtain ⟨x, run, rfl, -⟩ := exec_onlyPcWstRun hw.1 hw.2 h
    rfl

/-- Settles O8: sizes are at most 3, so moving `pc` on wraps as a sum does. -/
theorem controlFlowIsSequential : Obligations.ControlFlowIsSequential := by
  refine ⟨fun i s t h => ?_, fun i => by cases i <;> rfl⟩
  have hsize : i.size % 65536 = i.size := Nat.mod_eq_of_lt (by have := size_le_three i; omega)
  rw [exec_pc h, BitVec.toNat_add, BitVec.toNat_ofNat, hsize]

/-! ### Which faults an instruction can take -/

/-- `OnlyWst` for `byteOp`, whose push raises nothing on a stack within the capacity. -/
theorem onlyWst_byteOp_or (hu : .stackUnderflow ∈ ks) (f : Byte → Byte → Byte)
    (ho : s.wst.length ≤ s.params.stackCapacity ∨ .stackOverflow ∈ ks) : OnlyWst ks (byteOp f s) s := by
  rcases ho with hc | ho
  · exact onlyWst_byteOp hu f s hc
  · exact (onlyWst_pop hu s).andThen fun _ u => (onlyWst_pop hu u).andThen fun _ w => onlyWst_push ho _ w

theorem onlyWst_shortOp_or (hu : .stackUnderflow ∈ ks) (f : Short → Short → Short)
    (ho : s.wst.length ≤ s.params.stackCapacity ∨ .stackOverflow ∈ ks) : OnlyWst ks (shortOp f s) s := by
  rcases ho with hc | ho
  · exact onlyWst_shortOp hu f s hc
  · exact (onlyWst_pop2 hu s).andThen fun _ u => (onlyWst_pop2 hu u).andThen fun _ w => onlyWst_push2 ho _ w

/-- DEI's push has the room of the port it popped. -/
theorem onlyWst_dei (hu : .stackUnderflow ∈ ks) (ho : s.wst.length ≤ s.params.stackCapacity ∨ .stackOverflow ∈ ks) :
    OnlyWst ks ((pop .wst s).andThen fun p u => (ioRead p u).andThen fun v w => push .wst v w) s := by
  rcases ho with hc | ho
  · rcases List.eq_nil_or_concat' s.wst with e | ⟨r, p, e⟩
    · rw [pop_empty (i := .wst) e, raise_andThen]
      exact onlyWst_raise_self hu
    · have hlen : r.length + 1 = s.wst.length := by rw [e, List.length_append, List.length_singleton]
      have hroom : r.length ≠ s.params.stackCapacity := by omega
      rw [pop_concat (i := .wst) e, ok_andThen, ioRead, ok_andThen, push_room (by exact hroom), setStack_setStack]
      exact onlyWst_ok _ fun _ => by rw [stack_setStack, List.length_append, List.length_singleton]; omega
  · exact (onlyWst_pop hu s).andThen fun p u => (onlyWst_ioRead p u).andThen fun _ w => onlyWst_push ho _ w

/-- The run state after an instruction that writes no port, BRK and BRK2 apart: as before, or faulted with one of its own
kinds, to which a stack beyond the capacity, which no legal state has, can add the overflow. -/
theorem exec_run_of_not_write (hdeo : i ≠ .deo) (hdeo2 : i ≠ .deo2) (hbrk : i ≠ .brk) (hbrk2 : i ≠ .brk2)
    (hk : ∀ k ∈ i.faultKinds, k ∈ ks) (ho : s.wst.length ≤ s.params.stackCapacity ∨ .stackOverflow ∈ ks)
    (h : exec i s = .next t) : t.run = s.run ∨ ∃ k ∈ ks, t.run = .faulted k s.pc := by
  have key {lines : State → Micro Unit} {n : Nat} (hexec : exec i s = runLines lines s)
      (hl : OnlyWst ks (lines (advance 1 s)) (advance (1 + n) s)) : t.run = s.run ∨ ∃ k ∈ ks, t.run = .faulted k s.pc := by
    obtain ⟨x, run, rfl, -, hrun⟩ := runLines_onlyWst hl (hexec.symm.trans h)
    exact hrun
  cases i <;> simp only [Instr.faultKinds, List.forall_mem_cons] at hk
  case brk => exact absurd rfl hbrk
  case brk2 => exact absurd rfl hbrk2
  case lit imm => exact key (n := 1) (exec_lit imm s) (by rw [← advance_advance]; exact onlyWst_push hk.1 imm _)
  case lit2 imm => exact key (n := 2) (exec_lit2 imm s) (by rw [← advance_advance]; exact onlyWst_push2 hk.1 imm _)
  case inc => exact key (n := 0) (exec_inc s) ((onlyWst_top hk.1 _).andThen fun _ _ => onlyWst_setTop _ _)
  case inc2 => exact key (n := 0) (exec_inc2 s) ((onlyWst_top2 hk.1 _).andThen fun _ _ => onlyWst_setTop2 _ _)
  case dei => exact key (n := 0) (exec_dei s) (onlyWst_dei hk.1 ho)
  case dei2 =>
    obtain ⟨hu, hb, hov, -⟩ := hk
    exact key (n := 0) (exec_dei2 s) ((onlyWst_pop hu _).andThen fun p u => (onlyWst_ioRead2 hb p u).andThen fun _ w =>
      onlyWst_push2 hov _ w)
  case deo => exact absurd rfl hdeo
  case deo2 => exact absurd rfl hdeo2
  case add => exact key (n := 0) (exec_add s) (onlyWst_byteOp_or hk.1 _ ho)
  case add2 => exact key (n := 0) (exec_add2 s) (onlyWst_shortOp_or hk.1 _ ho)
  case sub => exact key (n := 0) (exec_sub s) (onlyWst_byteOp_or hk.1 _ ho)
  case sub2 => exact key (n := 0) (exec_sub2 s) (onlyWst_shortOp_or hk.1 _ ho)
  case illegalReturn keep short base => exact key (n := 0) (exec_illegalReturn keep short base s) (onlyWst_raise_self hk.1)
  case illegalKeep short base => exact key (n := 0) (exec_illegalKeep short base s) (onlyWst_raise_self hk.1)
  case illegalBase short base => exact key (n := 0) (exec_illegalBase short base s) (onlyWst_raise_self hk.1)

theorem runAfter_cases (res : NotifyResult) (a : Short) (run : RunState) :
    (res = .ok ∧ runAfter res a run = run) ∨ runAfter res a run = .faulted .unknownPort a := by
  cases res with
  | ok => exact .inl ⟨rfl, rfl⟩
  | unknownPort => exact .inr rfl

/-- The run state after a port write: as before, or faulted with one of the instruction's own kinds, `UnknownPort` only from
a device. -/
theorem exec_run_of_write (hi : i = .deo ∨ i = .deo2) (h : exec i s = .next t) :
    t.run = s.run ∨ ∃ k ∈ i.faultKinds, t.run = .faulted k s.pc ∧ (k = .unknownPort → s.params.attached ≠ []) := by
  rcases exec_write_cases hi h with
    ⟨x, k, -, hk, hne, rfl⟩ | ⟨x, p, v, io, -, -, -, res, io', rs, d, rfl, -, -, -, habsent⟩
  · exact .inr ⟨k, hk, rfl, fun e => absurd e hne⟩
  · rcases runAfter_cases res s.pc s.run with ⟨-, hrun⟩ | hrun
    · exact .inl hrun
    · by_cases ha : slotOf p ∈ s.params.attached
      · exact .inr ⟨.unknownPort, by rcases hi with rfl | rfl <;> decide, hrun, fun _ => List.ne_nil_of_mem ha⟩
      · obtain ⟨rfl, -, -⟩ := habsent ha
        exact .inl rfl

/-- The run state after any instruction. -/
theorem exec_run_cases (hk : ∀ k ∈ i.faultKinds, k ∈ ks)
    (ho : s.wst.length ≤ s.params.stackCapacity ∨ .stackOverflow ∈ ks) (h : exec i s = .next t) :
    ((i = .brk ∨ i = .brk2) ∧ t.run = .halted) ∨
    (i ≠ .brk ∧ i ≠ .brk2 ∧ (t.run = s.run ∨ ∃ k ∈ ks, t.run = .faulted k s.pc)) := by
  by_cases hb : i = .brk ∨ i = .brk2
  · refine .inl ⟨hb, ?_⟩
    rcases hb with rfl | rfl <;> cases h <;> rfl
  rw [not_or] at hb
  refine .inr ⟨hb.1, hb.2, ?_⟩
  by_cases hw : i = .deo ∨ i = .deo2
  · rcases exec_run_of_write hw h with hrun | ⟨k, hk', hrun, -⟩
    · exact .inl hrun
    · exact .inr ⟨k, hk k hk', hrun⟩
  · rw [not_or] at hw
    exact exec_run_of_not_write hw.1 hw.2 hb.1 hb.2 hk ho h

/-- Settles O9: BRK and BRK2 halt, and every other instruction leaves the machine running or faulted. -/
theorem haltExactlyOnBrk : Obligations.HaltExactlyOnBrk := by
  intro s t hr h
  rw [step_running hr] at h
  rcases exec_run_cases (ks := allFaults) (fun k _ => mem_allFaults k) (.inr (mem_allFaults _)) h with
    ⟨hb, hrun⟩ | ⟨hb, hb2, hrun | ⟨k, -, hrun⟩⟩
  · simp [State.stepResult, hrun, hb]
  · simp [State.stepResult, hrun, hr, hb, hb2]
  · simp [State.stepResult, hrun, hb, hb2]

/-- Settles O31: on a stack within the capacity the run state after an instruction is one of its own faults, or none. -/
theorem faultsAreTheInstructionsOwn : Obligations.FaultsAreTheInstructionsOwn := by
  intro s t hr hc h kind a hfault
  rw [step_running hr] at h
  rcases exec_run_cases (fun _ => id) (.inl hc) h with ⟨-, hrun⟩ | ⟨-, -, hrun | ⟨k, hk, hrun⟩⟩
  · cases hrun.symm.trans hfault
  · cases (hrun.trans hr).symm.trans hfault
  · cases hrun.symm.trans hfault
    exact ⟨rfl, hk⟩

/-- The kinds of an instruction that writes no port are without `UnknownPort`. -/
theorem unknownPort_not_mem_faultKinds (hdeo : i ≠ .deo) (hdeo2 : i ≠ .deo2) : Fault.unknownPort ∉ i.faultKinds := by
  cases i
  case deo => exact absurd rfl hdeo
  case deo2 => exact absurd rfl hdeo2
  all_goals simp [Instr.faultKinds]

/-- Settles O32: only DEO and DEO2 have the kind, and they take it from a device. -/
theorem noDeviceNoUnknownPort : Obligations.NoDeviceNoUnknownPort := by
  intro s t hno hr h a hfault
  rw [step_running hr] at h
  by_cases hw : fetchInstr s = .deo ∨ fetchInstr s = .deo2
  · rcases exec_run_of_write hw h with hrun | ⟨k, -, hrun, hdevice⟩
    · cases (hrun.trans hr).symm.trans hfault
    · cases hrun.symm.trans hfault
      exact hdevice rfl hno
  · rw [not_or] at hw
    rcases exec_run_cases (ks := .stackOverflow :: (fetchInstr s).faultKinds) (fun _ => List.mem_cons_of_mem _)
      (.inr List.mem_cons_self) h with ⟨-, hrun⟩ | ⟨-, -, hrun | ⟨k, hk, hrun⟩⟩
    · cases hrun.symm.trans hfault
    · cases (hrun.trans hr).symm.trans hfault
    · cases hrun.symm.trans hfault
      rcases List.mem_cons.1 hk with hk | hk
      · cases hk
      · exact unknownPort_not_mem_faultKinds hw.1 hw.2 hk

/-! ### Illegal opcode bytes (R100, R102) -/

theorem fetchInstr_of {c : OpcodeClass} (h : classify s.params.baseCode (memRead s s.pc) = c) :
    fetchInstr s = instrOf c (memRead s s.pc) (memRead s (s.pc + 1)) (memRead s (s.pc + 2)) := decodeWindow_of h

theorem baseField_toNat (b : Byte) : (baseField b).toNat = b.toNat % 32 := by
  simp [baseField]

/-- Settles O30: the three rows by their own meaning, and each class of bytes by the decoder's answer for it. -/
theorem illegalOpcodesFault : Obligations.IllegalOpcodesFault := by
  refine ⟨fun _ _ _ _ => rfl, fun _ _ _ => rfl, fun _ _ _ => rfl, fun s hr hret => ?_, fun s hr hret hkeep hbase => ?_,
    fun s hr hret hkeep hbase => ?_⟩
  · rw [step_running hr, fetchInstr_of (classify_return hret)]
    rfl
  · have hne : baseField (memRead s s.pc) ≠ 0 := fun e => hbase (by rw [← baseField_toNat, e]; rfl)
    rw [step_running hr, fetchInstr_of (classify_keep hret hkeep hne)]
    rfl
  · rw [step_running hr, fetchInstr_of (classify_unassigned hret hkeep hbase)]
    rfl

/-! ### Steps that are supplied with what they need -/

/-- The instruction ends well: the run goes on or is over, and the stack holds what it leaves in place of what it takes. -/
def EndsWell (i : Instr) (s : State) : Prop :=
  ∃ t, exec i s = .next t ∧ t.safe ∧ t.wst.length = s.wst.length - i.needs + i.leaves

/-- An instruction that leaves a running state running, with `y` in place of the operands `x`, ends well. -/
theorem endsWell_of_exec {x y : Stack} (hr : s.run = .running) (h : exec i s = .next t) (hrun : t.run = s.run)
    (hs : s.wst = r ++ x) (hx : x.length = i.needs) (ht : t.wst = r ++ y) (hy : y.length = i.leaves) : EndsWell i s := by
  refine ⟨t, h, fun kind addr hfault => ?_, ?_⟩
  · cases (hrun.trans hr).symm.trans hfault
  · rw [hs, ht, List.length_append, List.length_append, hx, hy, Nat.add_sub_cancel]

/-- A stack with two shorts on it. -/
theorem exists_concat_shorts {x : Stack} (h : 4 ≤ x.length) :
    ∃ (r : Stack) (a b : Short), x = r ++ [hi8 a, lo8 a, hi8 b, lo8 b] := by
  obtain ⟨y, b, rfl⟩ := exists_concat_short (x := x) (by omega)
  obtain ⟨r, a, rfl⟩ := exists_concat_short (x := y) (by
    simp only [List.length_append, List.length_cons, List.length_nil] at h; omega)
  exact ⟨r, a, b, by simp⟩

/-- A slot that answers `Ok`: it has no device (R74), or its next reply is listed and says so. -/
def AnswersOk (s : State) (p : Byte) : Prop :=
  slotOf p ∉ s.params.attached ∨ ∃ d ds, s.replies = d :: ds ∧ d.result = .ok

/-- A port write to a slot that answers `Ok` leaves the run state alone. -/
theorem endsWell_of_notify {p : Byte} {v : NotifyValue} {io : Memory} {x : Stack} (hr : s.run = .running)
    (h : exec i s = runLines (fun _ => notify p v (beforeNotify r io s)) s) (hok : AnswersOk s p)
    (hs : s.wst = r ++ x) (hx : x.length = i.needs) (hleaves : i.leaves = 0) : EndsWell i s := by
  by_cases ha : slotOf p ∈ s.params.attached
  · obtain ⟨d, ds, hd, hres⟩ := hok.resolve_left fun hno => hno ha
    obtain ⟨io', hexec, -⟩ := exec_notify_listed h (fun _ => rfl) ha hd
    exact endsWell_of_exec (y := []) hr hexec (by rw [hres]; rfl) hs hx (List.append_nil r).symm hleaves.symm
  · obtain ⟨io', hexec, -⟩ := exec_notify_absent h (fun _ => rfl) ha
    exact endsWell_of_exec (y := []) hr hexec rfl hs hx (List.append_nil r).symm hleaves.symm

theorem endsWell_brk : EndsWell .brk s := ⟨_, exec_brk_eq s, nofun, rfl⟩

theorem endsWell_brk2 : EndsWell .brk2 s := ⟨_, exec_brk_eq s, nofun, rfl⟩

theorem endsWell_inc (hr : s.run = .running) (hn : 1 ≤ s.wst.length) : EndsWell .inc s := by
  obtain ⟨r, x, e⟩ := exists_concat hn
  exact endsWell_of_exec hr (exec_inc_of_operand e) rfl e rfl rfl rfl

theorem endsWell_inc2 (hr : s.run = .running) (hn : 2 ≤ s.wst.length) : EndsWell .inc2 s := by
  obtain ⟨r, x, e⟩ := exists_concat_short hn
  exact endsWell_of_exec hr (exec_inc2_of_operand e) rfl e rfl rfl rfl

theorem endsWell_dei (hr : s.run = .running) (hc : s.wst.length ≤ s.params.stackCapacity) (hn : 1 ≤ s.wst.length) :
    EndsWell .dei s := by
  obtain ⟨r, p, e⟩ := exists_concat hn
  exact endsWell_of_exec hr (exec_dei_of_operand hc e) rfl e rfl rfl rfl

theorem endsWell_dei2 (hr : s.run = .running) (hc : s.wst.length < s.params.stackCapacity) (hn : 1 ≤ s.wst.length)
    (hlast : s.wst.getLast? ≠ some 0xFF) : EndsWell .dei2 s := by
  obtain ⟨r, p, e⟩ := exists_concat hn
  have hp : p ≠ 0xFF := fun h => hlast (by rw [e, h]; simp)
  have hnext : (p + 1).toNat = p.toNat + 1 := by
    have hne : p.toNat ≠ 255 := fun h => hp (BitVec.eq_of_toNat_eq h)
    have hsum : (p + 1).toNat = (p.toNat + 1) % 256 := BitVec.toNat_add p 1
    have := p.isLt
    omega
  exact endsWell_of_exec hr (exec_dei2_of_operand hc e hnext) rfl e rfl rfl rfl

theorem endsWell_deo (hr : s.run = .running) (hn : 2 ≤ s.wst.length)
    (hok : ∀ p, s.wst.getLast? = some p → AnswersOk s p) : EndsWell .deo s := by
  obtain ⟨r, b, p, e⟩ := exists_concat2 hn
  exact endsWell_of_notify hr (exec_deo_of_operands e) (hok p (by simp [e])) e rfl rfl

theorem endsWell_deo2 (hr : s.run = .running) (hn : 3 ≤ s.wst.length)
    (hok : ∀ p, s.wst.getLast? = some p → portIn p ≠ 0xF ∧ AnswersOk s p) : EndsWell .deo2 s := by
  obtain ⟨r, w, p, e⟩ := exists_concat_short_port hn
  obtain ⟨hp, hanswer⟩ := hok p (by simp [e])
  exact endsWell_of_notify hr (exec_deo2_of_operands e hp) hanswer e rfl rfl

/-- Settles O33: each legal instruction ends well on the operands and the room it is promised. -/
theorem suppliedStepIsSafe : Obligations.SuppliedStepIsSafe := by
  intro s hr hc hn hroom hsupplied
  rw [step_running hr]
  show EndsWell (fetchInstr s) s
  cases hi : fetchInstr s <;> rw [hi] at hn hroom hsupplied <;>
    simp only [Instr.needs, Instr.leaves, Nat.sub_zero] at hn hroom
  case brk => exact endsWell_brk
  case brk2 => exact endsWell_brk2
  case lit imm =>
    exact endsWell_of_exec (x := []) hr (exec_lit_room imm hroom) rfl (List.append_nil _).symm rfl rfl rfl
  case lit2 imm =>
    exact endsWell_of_exec (x := []) hr (exec_lit2_room imm hroom) rfl (List.append_nil _).symm rfl rfl rfl
  case inc => exact endsWell_inc hr hn
  case inc2 => exact endsWell_inc2 hr hn
  case dei => exact endsWell_dei hr hc hn
  case dei2 => exact endsWell_dei2 hr (by omega) hn hsupplied
  case deo => exact endsWell_deo hr hn hsupplied
  case deo2 => exact endsWell_deo2 hr hn hsupplied
  case add =>
    obtain ⟨r, a, b, e⟩ := exists_concat2 hn
    exact endsWell_of_exec hr (exec_add_of_operands hc e) rfl e rfl rfl rfl
  case sub =>
    obtain ⟨r, a, b, e⟩ := exists_concat2 hn
    exact endsWell_of_exec hr (exec_sub_of_operands hc e) rfl e rfl rfl rfl
  case add2 =>
    obtain ⟨r, a, b, e⟩ := exists_concat_shorts hn
    exact endsWell_of_exec hr (exec_add2_of_operands hc e) rfl e rfl rfl rfl
  case sub2 =>
    obtain ⟨r, a, b, e⟩ := exists_concat_shorts hn
    exact endsWell_of_exec hr (exec_sub2_of_operands hc e) rfl e rfl rfl rfl
  case illegalReturn keep short base => exact hsupplied.elim
  case illegalKeep short base => exact hsupplied.elim
  case illegalBase short base => exact hsupplied.elim

end Sys2Proof.Machine
end

section
/-! PROOFS of 10_state.md's and 20_memory.md's statements on the whole machine: what every step keeps, what it adds to the
history and takes from the inputs, and what it does not read. -/

namespace Sys2Proof.Machine

variable {α β : Type} {i : Instr} {s t : State}

/-! ### Legal states -/

theorem exec_wf (hs : s.wf) (h : exec i s = .next t) : t.wf := by
  obtain ⟨hmem, hio, hwst, hrst⟩ := hs
  by_cases hw : i = .deo ∨ i = .deo2
  · rcases exec_write_cases hw h with ⟨x, k, hx, -, -, rfl⟩ | ⟨x, p, v, io, hx, -, hpage, res, io', rs, d, rfl, hlatch, -⟩
    · exact ⟨hmem, hio, hx.trans hwst, hrst⟩
    · exact ⟨hmem, hlatch.2 (hpage.2 hio), hx.trans hwst, hrst⟩
  · rw [not_or] at hw
    obtain ⟨x, run, rfl, hfits⟩ := exec_onlyPcWstRun hw.1 hw.2 h
    exact ⟨hmem, hio, hfits hwst, hrst⟩

/-- Settles O34: a port write keeps the I/O page canonical, every other instruction leaves both pages alone, and none puts a
stack over the capacity. -/
theorem stepKeepsWellFormed : Obligations.StepKeepsWellFormed := by
  intro s t hs h
  by_cases hr : s.run = .running
  · rw [step_running hr] at h
    exact exec_wf hs h
  · rw [step_stopped hr] at h
    cases h
    exact hs

theorem resetWith_wf (params : Params) : (State.resetWith params).wf :=
  ⟨Memory.nil_wf memSize, Memory.nil_wf ioSize, Nat.zero_le _, Nat.zero_le _⟩

theorem resetCore_wf (s : State) : (resetCore s).wf := resetWith_wf s.params

/-- Settles O35: memory, the I/O page and the stacks are empty after reset. -/
theorem resetIsWellFormed : Obligations.ResetIsWellFormed := ⟨resetWith_wf Params.standard, resetCore_wf⟩

/-- Settles O36: reset answers a legal state, a load writes an image that fits, and a step is O34. -/
theorem hostKeepsWellFormed : Obligations.HostKeepsWellFormed := by
  intro q h hs
  cases q with
  | reset => exact resetCore_wf h.core
  | load image =>
    show (requestLoad image h).2.core.wf
    rcases requestLoad_cases image h with e | ⟨hlen, e⟩
    · rw [e]
      exact hs
    · obtain ⟨hmem, hio, hwst, hrst⟩ := hs
      rw [e]
      exact ⟨loadImage_wf hmem hlen, hio, hwst, hrst⟩
  | step =>
    obtain ⟨t, ht⟩ := step_next h.core
    have hcore : (hostRequest .step h).2.core = t := by simp only [hostRequest, requestStep, ht]
    rw [hcore]
    exact stepKeepsWellFormed _ _ hs ht
  | readState => exact hs

/-! ### Fields that stay -/

/-- Settles O38: the return stack and the parameters are among the fields no instruction writes, and reset empties the one
and keeps the other. -/
theorem returnStackIsReserved : Obligations.ReturnStackIsReserved :=
  ⟨fun _ _ _ h => (exec_sameFixed h).2, fun _ _ h => (step_sameFixed h).2, fun _ _ _ h => (runFor_sameFixed h).2,
    fun _ _ _ _ h => (runFor_sameFixed h).2⟩

/-- Settles O39: `exec_onlyPcWstRun` without its bound on the stack. -/
theorem otherInstructionsChangeOnlyPcStackAndRun : Obligations.OtherInstructionsChangeOnlyPcStackAndRun := by
  intro i s t hdeo hdeo2 h
  obtain ⟨x, run, ht, -⟩ := exec_onlyPcWstRun hdeo hdeo2 h
  exact ⟨x, run, ht⟩

/-! ### The history and the inputs -/

/-- `t` has the history of `s` and at most one event more, and has taken a reply, or drawn one, only with an event. -/
def GrowsByNotification (s t : State) : Prop :=
  ∃ (new : List Event) (used : List DeviceReply), t.events = s.events ++ new ∧ new.length ≤ 1 ∧
    s.replies = used ++ t.replies ∧ used.length + (t.draws - s.draws) ≤ new.length ∧ s.draws ≤ t.draws ∧
    (t.draws ≠ s.draws → s.replies = [])

/-- A step with no notification. -/
theorem growsByNotification_of_same (he : t.events = s.events) (hr : t.replies = s.replies) (hd : t.draws = s.draws) :
    GrowsByNotification s t :=
  ⟨[], [], by simp [he], Nat.zero_le 1, by simp [hr], by simp [hd], hd.ge, fun h => absurd hd h⟩

theorem exec_growsByNotification (h : exec i s = .next t) : GrowsByNotification s t := by
  by_cases hw : i = .deo ∨ i = .deo2
  · rcases exec_write_cases hw h with
      ⟨x, k, -, -, -, rfl⟩ | ⟨x, p, v, io, -, -, -, res, io', rs, d, rfl, -, -, ⟨used, hused, hcount, hle, hfree⟩, -⟩
    · exact growsByNotification_of_same rfl rfl rfl
    · exact ⟨[eventOf p v res], used, rfl, le_rfl, hused, hcount, hle, hfree⟩
  · rw [not_or] at hw
    obtain ⟨x, run, rfl, -⟩ := exec_onlyPcWstRun hw.1 hw.2 h
    exact growsByNotification_of_same rfl rfl rfl

/-- Settles O40: an event comes with a notification alone, of which an instruction makes at most one. -/
theorem historyGrowsByNotifications : Obligations.HistoryGrowsByNotifications := by
  intro s t h
  by_cases hr : s.run = .running
  · rw [step_running hr] at h
    exact exec_growsByNotification h
  · rw [step_stopped hr] at h
    cases h
    exact growsByNotification_of_same rfl rfl rfl

/-! ### What is not read -/

/-- `s` with other contents where no instruction's lines look: memory, the return stack, and events before its own. -/
def relabel (m : Memory → Memory) (x : Stack → Stack) (past : List Event) (s : State) : State :=
  { s with mem := m s.mem, rst := x s.rst, events := past ++ s.events }

/-- The outcome of a line, its state changed. -/
def Micro.mapState (f : State → State) : Micro α → Micro α
  | .ok a s => .ok a (f s)
  | .raise k s => .raise k (f s)

/-- Two lines in a row, on a state and on a changed one. -/
theorem andThen_mapState {f : State → State} {a b : Micro α} {next : α → State → Micro β} (hm : b = a.mapState f)
    (hn : ∀ v u, a = .ok v u → next v (f u) = (next v u).mapState f) : b.andThen next = (a.andThen next).mapState f := by
  subst hm
  cases a with
  | ok v u => exact hn v u rfl
  | raise k u => rfl

/-- The lines do to a changed state what they do to the state, and change nothing in what they answer. -/
def Blind (f : State → State) (lines : State → Micro α) : Prop := ∀ s, lines (f s) = (lines s).mapState f

theorem Blind.andThen {f : State → State} {m : State → Micro α} {next : α → State → Micro β} (hm : Blind f m)
    (hn : ∀ a, Blind f (next a)) : Blind f fun s => (m s).andThen next :=
  fun s => andThen_mapState (hm s) fun a u _ => hn a u

section relabel
variable {m : Memory → Memory} {x : Stack → Stack} {past : List Event}

theorem blind_pop : Blind (relabel m x past) (pop .wst) := by
  intro s
  rcases List.eq_nil_or_concat' s.wst with e | ⟨r, b, e⟩
  · rw [pop_empty (i := .wst) (s := s) e, pop_empty (i := .wst) (s := relabel m x past s) e]; rfl
  · rw [pop_concat (i := .wst) (s := s) e, pop_concat (i := .wst) (s := relabel m x past s) e]; rfl

theorem blind_push (b : Byte) : Blind (relabel m x past) (push .wst b) := by
  intro s
  by_cases h : s.wst.length = s.params.stackCapacity
  · rw [push_full (i := .wst) (s := s) h, push_full (i := .wst) (s := relabel m x past s) h]; rfl
  · rw [push_room (i := .wst) (s := s) h, push_room (i := .wst) (s := relabel m x past s) h]; rfl

theorem blind_pop2 : Blind (relabel m x past) (pop2 .wst) := blind_pop.andThen fun _ =>
  blind_pop.andThen fun _ _ => rfl

theorem blind_push2 (v : Short) : Blind (relabel m x past) (push2 .wst v) := (blind_push _).andThen fun _ => blind_push _

theorem blind_top : Blind (relabel m x past) (top .wst) := by
  intro s
  by_cases h : s.wst.length < 1
  · rw [top_short h, top_short (s := relabel m x past s) h]; rfl
  · obtain ⟨r, b, e⟩ := exists_concat (x := s.wst) (by omega)
    rw [top_concat (i := .wst) (s := s) e, top_concat (i := .wst) (s := relabel m x past s) e]; rfl

theorem blind_top2 : Blind (relabel m x past) (top2 .wst) := by
  intro s
  by_cases h : s.wst.length < 2
  · rw [top2_short (i := .wst) (s := s) h, top2_short (i := .wst) (s := relabel m x past s) h]; rfl
  · obtain ⟨r, hi, lo, e⟩ := exists_concat2 (x := s.wst) (by omega)
    rw [top2_concat (i := .wst) (s := s) e, top2_concat (i := .wst) (s := relabel m x past s) e]; rfl

theorem blind_ioRead2 (p : Byte) : Blind (relabel m x past) (ioRead2 p) := by
  intro s
  by_cases h : p = 0xFF
  · rw [ioRead2, ioRead2, if_pos h, if_pos h]; rfl
  · rw [ioRead2, ioRead2, if_neg h, if_neg h]; rfl

theorem blind_byteOp (f : Byte → Byte → Byte) : Blind (relabel m x past) (byteOp f) :=
  blind_pop.andThen fun _ => blind_pop.andThen fun _ => blind_push _

theorem blind_shortOp (f : Short → Short → Short) : Blind (relabel m x past) (shortOp f) :=
  blind_pop2.andThen fun _ => blind_pop2.andThen fun _ => blind_push2 _

/-- An instruction whose lines answer alike answers alike. -/
theorem runLines_relabel {lines : State → Micro Unit}
    (hl : lines (advance 1 (relabel m x past s)) = (lines (advance 1 s)).mapState (relabel m x past))
    (h : runLines lines s = .next t) : runLines lines (relabel m x past s) = .next (relabel m x past t) := by
  rcases runLines_cases h with e | ⟨k, u, e, rfl⟩
  · rw [e] at hl
    exact runLines_ok hl
  · rw [e] at hl
    exact runLines_raise hl

/-- An instruction that writes no port looks at no memory, return stack or event. -/
theorem exec_relabel_of_not_write (hdeo : i ≠ .deo) (hdeo2 : i ≠ .deo2) (h : exec i s = .next t) :
    exec i (relabel m x past s) = .next (relabel m x past t) := by
  have key {lines : State → Micro Unit} (hexec : ∀ s, exec i s = runLines lines s) (hl : Blind (relabel m x past) lines) :
      exec i (relabel m x past s) = .next (relabel m x past t) := by
    rw [hexec] at h ⊢
    exact runLines_relabel (hl (advance 1 s)) h
  cases i
  case brk => exact key exec_brk fun _ => rfl
  case brk2 => exact key exec_brk2 fun _ => rfl
  case lit imm => exact key (exec_lit imm) fun u => blind_push imm (advance 1 u)
  case lit2 imm => exact key (exec_lit2 imm) fun u => blind_push2 imm (advance 2 u)
  case inc => exact key exec_inc (blind_top.andThen fun _ _ => rfl)
  case inc2 => exact key exec_inc2 (blind_top2.andThen fun _ _ => rfl)
  case dei => exact key exec_dei (blind_pop.andThen fun p => Blind.andThen (fun _ => rfl) fun _ => blind_push _)
  case dei2 => exact key exec_dei2 (blind_pop.andThen fun p => (blind_ioRead2 p).andThen fun _ => blind_push2 _)
  case deo => exact absurd rfl hdeo
  case deo2 => exact absurd rfl hdeo2
  case add => exact key exec_add (blind_byteOp _)
  case add2 => exact key exec_add2 (blind_shortOp _)
  case sub => exact key exec_sub (blind_byteOp _)
  case sub2 => exact key exec_sub2 (blind_shortOp _)
  case illegalReturn keep short base => exact key (exec_illegalReturn keep short base) fun _ => rfl
  case illegalKeep short base => exact key (exec_illegalKeep short base) fun _ => rfl
  case illegalBase short base => exact key (exec_illegalBase short base) fun _ => rfl

/-- Memory counts for a notification only where the reply is a free one: either it stays, or the reply is listed. -/
def SameOrListed (m : Memory → Memory) (s : State) (p : Byte) : Prop :=
  m s.mem = s.mem ∨ (slotOf p ∈ s.params.attached → s.replies ≠ [])

/-- A notification does not depend on what its slot's device is not shown. -/
theorem notify_relabel (p : Byte) (v : NotifyValue) (s : State) (hmem : SameOrListed m s p) :
    notify p v (relabel m x past s) = (notify p v s).mapState (relabel m x past) := by
  by_cases ha : slotOf p ∈ s.params.attached
  · cases hs : s.replies with
    | cons d ds =>
      rw [notify_listed ha hs, notify_listed (s := relabel m x past s) ha hs]
      cases d.result <;> simp [Micro.mapState, relabel, record]
    | nil =>
      have hsame : m s.mem = s.mem := hmem.resolve_right fun hne => hne ha hs
      have hview : notificationOf p v (relabel m x past s) = notificationOf p v s := by
        simp [notificationOf, relabel, hsame]
      have hdraws : (relabel m x past s).draws = s.draws := rfl
      rw [notify_free ha hs, notify_free (s := relabel m x past s) ha hs, hview, hdraws]
      simp only
      cases (Config.freeReply s.draws (notificationOf p v s)).result <;> simp [Micro.mapState, relabel, record]
  · rw [notify_absent ha, notify_absent (s := relabel m x past s) ha]
    simp [Micro.mapState, relabel, record]

theorem ioWrite_relabel (p v : Byte) (s : State) (hmem : SameOrListed m s p) :
    ioWrite p v (relabel m x past s) = (ioWrite p v s).mapState (relabel m x past) :=
  notify_relabel p (.byte v) (ioStore p v s) hmem

theorem ioWrite2_relabel (p : Byte) (v : Short) (s : State) (hmem : SameOrListed m s p) :
    ioWrite2 p v (relabel m x past s) = (ioWrite2 p v s).mapState (relabel m x past) := by
  by_cases hp : portIn p = 0xF
  · rw [ioWrite2, ioWrite2, if_pos hp, if_pos hp]
    rfl
  · rw [ioWrite2, ioWrite2, if_neg hp, if_neg hp]
    exact notify_relabel p (.short v) (ioStore (p + 1) (lo8 v) (ioStore p (hi8 v) s)) hmem

/-- Lines that pop a port and then an operand with `get`, and write to the port. -/
theorem write_lines_relabel {get : State → Micro α} {write : Byte → α → State → Micro Unit}
    (hget : ∀ s, get (relabel m x past s) = (get s).mapState (relabel m x past))
    (hpopped : ∀ a u w, get u = .ok a w → ∃ r, w = u.setStack .wst r)
    (hwrite : ∀ p a u, SameOrListed m u p → write p a (relabel m x past u) = (write p a u).mapState (relabel m x past))
    (hmem : ∀ p, s.wst.getLast? = some p → SameOrListed m s p) :
    ((pop .wst (relabel m x past s)).andThen fun p u => (get u).andThen fun a w => write p a w) =
      ((pop .wst s).andThen fun p u => (get u).andThen fun a w => write p a w).mapState (relabel m x past) := by
  refine andThen_mapState (blind_pop s) fun p u hu => andThen_mapState (hget u) fun a w hw => hwrite p a w ?_
  obtain ⟨r, e, rfl⟩ := pop_ok hu
  obtain ⟨r', rfl⟩ := hpopped a _ w hw
  exact hmem p (by rw [stack_wst] at e; simp [e])

/-- No instruction looks at the return stack or the history, and none at memory but to show it to a device that gives a free
reply. -/
theorem exec_relabel (hmem : i = .deo ∨ i = .deo2 → ∀ p, s.wst.getLast? = some p → SameOrListed m s p)
    (h : exec i s = .next t) : exec i (relabel m x past s) = .next (relabel m x past t) := by
  by_cases hdeo : i = .deo
  · subst hdeo
    rw [exec_deo] at h ⊢
    refine runLines_relabel ?_ h
    exact write_lines_relabel (s := advance 1 s) blind_pop
      (fun _ _ _ e => by obtain ⟨r, -, hr⟩ := pop_ok e; exact ⟨r, hr⟩) ioWrite_relabel (hmem (.inl rfl))
  by_cases hdeo2 : i = .deo2
  · subst hdeo2
    rw [exec_deo2] at h ⊢
    refine runLines_relabel ?_ h
    exact write_lines_relabel (s := advance 1 s) blind_pop2
      (fun _ _ _ e => by obtain ⟨r, -, hr⟩ := pop2_ok e; exact ⟨r, hr⟩) ioWrite2_relabel (hmem (.inr rfl))
  exact exec_relabel_of_not_write hdeo hdeo2 h

/-- A step from a changed state, where the fetch finds the same instruction. -/
theorem step_relabel (hfetch : fetchInstr (relabel m x past s) = fetchInstr s)
    (hmem : fetchInstr s = .deo ∨ fetchInstr s = .deo2 → ∀ p, s.wst.getLast? = some p → SameOrListed m s p)
    (h : step s = .next t) : step (relabel m x past s) = .next (relabel m x past t) := by
  by_cases hr : s.run = .running
  · rw [step_running hr] at h
    rw [step_running (s := relabel m x past s) hr, hfetch]
    exact exec_relabel hmem h
  · rw [step_stopped hr] at h
    cases h
    exact step_stopped (s := relabel m x past s) hr

end relabel

/-- Settles O43: the return stack is one of the things a relabelling changes. -/
theorem returnStackIsNotRead : Obligations.ReturnStackIsNotRead := by
  intro s t x h
  exact step_relabel (m := id) (x := fun _ => x) (past := []) rfl (fun _ _ _ => .inl rfl) h

/-- The state with an empty history, the past put back before it. -/
theorem relabel_past (past : List Event) (s : State) :
    relabel id id past { s with events := [] } = { s with events := past } := by
  simp [relabel]

/-- Settles O41: the step from an empty history says what events the step adds to any other. -/
theorem historyIsNotRead : Obligations.HistoryIsNotRead := by
  intro s t past h
  obtain ⟨t', h'⟩ := step_next { s with events := [] }
  have hpast (past : List Event) : step { s with events := past } = .next { t' with events := past ++ t'.events } := by
    have hstep := step_relabel (m := id) (x := id) (past := past) rfl (fun _ _ _ => .inl rfl) h'
    rwa [relabel_past] at hstep
  have ht := h.symm.trans (hpast s.events)
  cases ht
  exact ⟨t'.events, rfl, hpast past⟩

/-- The decoder looks at the bytes of the instruction it finds, and no others (R93). -/
theorem decodeWindow_congr {bc : BaseCode} {b i1 i2 j1 j2 : Byte} (h1 : 1 < (decodeWindow bc b i1 i2).size → j1 = i1)
    (h2 : 2 < (decodeWindow bc b i1 i2).size → j2 = i2) : decodeWindow bc b j1 j2 = decodeWindow bc b i1 i2 := by
  by_cases hlit : b = 0x80
  · subst hlit
    have e1 : j1 = i1 := h1 (by rw [decodeWindow_lit]; exact Nat.lt_add_one 1)
    rw [decodeWindow_lit, decodeWindow_lit, e1]
  by_cases hlit2 : b = 0xA0
  · subst hlit2
    have e1 : j1 = i1 := h1 (by rw [decodeWindow_lit2]; exact Nat.lt_of_sub_pos Nat.zero_lt_two)
    have e2 : j2 = i2 := h2 (by rw [decodeWindow_lit2]; exact Nat.lt_add_one 2)
    rw [decodeWindow_lit2, decodeWindow_lit2, e1, e2]
  exact instrOf_ignores_immediate (classify_ne_lit hlit hlit2) b j1 j2 i1 i2

/-- Two states that agree on the bytes of the instruction one of them fetches, fetch the same. -/
theorem fetchInstr_congr {s' : State} (hpc : s'.pc = s.pc) (hparams : s'.params = s.params)
    (hbyte : ∀ k : Nat, k < (fetchInstr s).size →
      memRead s' (s.pc + BitVec.ofNat 16 k) = memRead s (s.pc + BitVec.ofNat 16 k)) : fetchInstr s' = fetchInstr s := by
  have hopcode : memRead s' s.pc = memRead s s.pc := by
    have h0 := hbyte 0 (one_le_size _)
    rwa [show s.pc + BitVec.ofNat 16 0 = s.pc from BitVec.add_zero s.pc] at h0
  rw [fetchInstr, fetchInstr, hpc, hparams, hopcode]
  exact decodeWindow_congr (hbyte 1) (hbyte 2)

/-- Settles O42: the fetch finds the same instruction, and memory is one of the things a relabelling changes. -/
theorem stepReadsOnlyItsOwnBytes : Obligations.StepReadsOnlyItsOwnBytes := by
  intro s t m _ hlisted hbytes h
  have hfetch : fetchInstr (relabel (fun _ => m) id [] s) = fetchInstr s := fetchInstr_congr rfl rfl hbytes
  have hstep := step_relabel hfetch (fun hw p hp => .inr (hlisted hw p hp)) h
  exact hstep

end Sys2Proof.Machine
end

section
/-! PROOFS of 70_reset_and_hazards.md's and 40_step_and_control.md section 3's statements: reset, load, the host's requests, and
that a run with a clear zero page stops. -/

namespace Sys2Proof.Machine

variable {s t : State}

/-! ### Reset and load -/

/-- Settles O46: reset builds these values whatever the state. -/
theorem resetValues : Obligations.ResetValues :=
  fun _ => ⟨rfl, rfl, rfl, fun _ => rfl, fun _ => rfl, rfl, rfl, rfl, rfl⟩

theorem toNat_resetPc : resetPc.toNat = 0x0100 := rfl

/-- Outside the image memory reads 0x00 after reset and load (D10). -/
theorem memRead_loadImage_outside (s : State) (image : List Byte) {a : Short}
    (ha : a.toNat < 0x0100 ∨ 0x0100 + image.length ≤ a.toNat) : memRead (loadImage image (resetCore s)) a = 0x00 := by
  have hempty : (resetCore s).mem = [] := rfl
  rw [memRead, loadImage_mem, hempty, Memory.read_writeBytes, toNat_resetPc, if_neg (by omega)]
  rfl

/-- Settles O47: a read after a run of writes, inside it and outside. -/
theorem loadPlacesImageVerbatim : Obligations.LoadPlacesImageVerbatim := by
  intro s image hlen
  refine ⟨fun k hk => ?_, fun a ha => memRead_loadImage_outside s image ha, rfl⟩
  have hmax : maxImage = 0xFF00 := rfl
  rw [memRead_loadImage_resetCore s image (by omega), List.getD_eq_getElem _ _ hk]

/-! ### Runs stop (R147) -/

/-- A clear byte at `pc` is BRK. -/
theorem fetchInstr_of_zero (h : memRead s s.pc = 0) : fetchInstr s = .brk := by
  rw [fetchInstr_of (classify_brk (by rw [h]; rfl) (by rw [h]; rfl) (by rw [h]; rfl)), h]
  rfl

theorem step_of_zero (hr : s.run = .running) (h : memRead s s.pc = 0) :
    step s = .next { s with pc := s.pc + 1, run := .halted } := by
  rw [step_running hr, fetchInstr_of_zero h]
  exact exec_brk_eq s

/-- A step from a running state moves `pc` up in memory, or round to the zero page, as no instruction is longer than it
(R32, R91). -/
theorem step_pc (hr : s.run = .running) (h : step s = .next t) :
    s.pc.toNat < t.pc.toNat ∨ t.pc.toNat < 0x0100 := by
  rw [step_running hr] at h
  have hpc := controlFlowIsSequential.1 _ _ _ h
  have hlow := one_le_size (fetchInstr s)
  have hhigh := size_le_three (fetchInstr s)
  have := s.pc.isLt
  omega

theorem zeroPageClear_step (hz : s.zeroPageClear) (h : step s = .next t) : t.zeroPageClear := by
  intro a ha
  rw [memRead, (step_sameFixed h).1]
  exact hz a ha

/-- A run stops within `n` steps. -/
def StopsWithin (n : Nat) (s : State) : Prop := ∃ k t, k ≤ n ∧ runFor k s = .next t ∧ t.run ≠ .running

theorem stopsWithin_of_stopped (n : Nat) (h : s.run ≠ .running) : StopsWithin n s := ⟨0, s, Nat.zero_le n, rfl, h⟩

theorem stopsWithin_succ {n : Nat} (h : step s = .next t) (ht : StopsWithin n t) : StopsWithin (n + 1) s := by
  obtain ⟨k, u, hk, hrun, hstop⟩ := ht
  exact ⟨k + 1, u, Nat.succ_le_succ hk, (runFor_succ k h).trans hrun, hstop⟩

theorem StopsWithin.mono {m n : Nat} (h : StopsWithin m s) (hmn : m ≤ n) : StopsWithin n s := by
  obtain ⟨k, u, hk, hrun, hstop⟩ := h
  exact ⟨k, u, hk.trans hmn, hrun, hstop⟩

/-- In the zero page the next step halts. -/
theorem stopsWithin_one_of_zeroPage (hz : s.zeroPageClear) (hpc : s.pc.toNat < 0x0100) : StopsWithin 1 s := by
  by_cases hr : s.run = .running
  · exact stopsWithin_succ (step_of_zero hr (hz s.pc hpc)) (stopsWithin_of_stopped 0 nofun)
  · exact stopsWithin_of_stopped 1 hr

/-- By induction on the bytes from `pc` to the top of memory: a step leaves fewer of them, or goes round to the zero page. -/
theorem stopsWithin_of_zeroPageClear (n : Nat) (hz : s.zeroPageClear) (hn : 65536 ≤ s.pc.toNat + n) :
    StopsWithin (n + 1) s := by
  induction n generalizing s with
  | zero =>
    have := s.pc.isLt
    omega
  | succ n ih =>
    by_cases hr : s.run = .running
    · obtain ⟨t, ht⟩ := step_next s
      have hzt := zeroPageClear_step hz ht
      rcases step_pc hr ht with hup | hround
      · exact stopsWithin_succ ht (ih hzt (by omega))
      · exact stopsWithin_succ ht ((stopsWithin_one_of_zeroPage hzt hround).mono (Nat.le_add_left 1 n))
    · exact stopsWithin_of_stopped _ hr

/-- Settles O44: the bytes from `pc` to the top of memory bound the steps to the zero page, where one more halts. -/
theorem runsStopAtTheZeroPage : Obligations.RunsStopAtTheZeroPage := by
  intro s hz
  have hlt := s.pc.isLt
  exact (stopsWithin_of_zeroPageClear (65536 - s.pc.toNat) hz (by omega)).mono (by omega)

/-- Settles O45: a loaded machine starts at 0x0100 with its zero page clear. -/
theorem loadedRunsTerminate : Obligations.LoadedRunsTerminate := fun s image _ =>
  runsStopAtTheZeroPage (loadImage image (resetCore s)) fun _ ha => memRead_loadImage_outside s image (.inl ha)

/-! ### The host's requests -/

/-- Settles O49: one case of `requestLoad` each, and a step always answers. -/
theorem loadOnceBeforeTheFirstStep : Obligations.LoadOnceBeforeTheFirstStep := by
  refine ⟨fun image h hp hlen => ?_, fun image h hp hlen => ?_, fun image h hp => ?_, fun h => ?_, fun h => rfl⟩
  · simp only [hostRequest, requestLoad, hp, if_neg (Nat.not_lt.2 hlen)]
  · simp only [hostRequest, requestLoad, hp, if_pos hlen]
  · cases hphase : h.phase with
    | fresh => exact absurd hphase hp
    | loaded => simp only [hostRequest, requestLoad, hphase]
    | stepping => simp only [hostRequest, requestLoad, hphase]
  · obtain ⟨t, ht⟩ := step_next h.core
    simp only [hostRequest, requestStep, ht]

/-- The read-out that an observation of an ended run allows. -/
def Observation.readOut : Observation → ReadOut
  | .halted pc wst rst mem io _ => .values pc wst rst mem io .halted
  | .faulted kind addr _ => .faulted kind addr

/-- A state read of an ended run is a part of its observation (R10, R245). -/
theorem readOut_eq_of_stopped (hr : s.run ≠ .running) : some s.readOut = s.observation.map Observation.readOut := by
  unfold State.readOut State.observation
  cases hrun : s.run with
  | running => exact absurd hrun hr
  | halted => rfl
  | faulted kind addr => rfl

/-- An observation is of an ended run. -/
theorem observation_running (hr : s.run = .running) : s.observation = none := by simp only [State.observation, hr]

theorem observation_stopped (hr : s.run ≠ .running) : s.observation ≠ none := by
  intro h
  have := readOut_eq_of_stopped hr
  rw [h] at this
  cases this

/-- Settles O54: what a read answers is a function of the run state, and of an ended run of the observation. -/
theorem stateReadShowsWhatIsObserved : Obligations.StateReadShowsWhatIsObserved := by
  refine ⟨fun h => rfl, fun h hr => ?_, fun h kind addr hr => ?_, fun h k hr hobs => ?_⟩
  · rcases hr with hr | hr <;> simp only [hostRequest, State.readOut, hr]
  · simp only [hostRequest, State.readOut, hr]
  · have hk : k.core.run ≠ .running := fun e =>
      observation_stopped hr (hobs.trans (observation_running e))
    have hread : h.core.readOut = k.core.readOut := Option.some.inj <|
      calc some h.core.readOut = h.core.observation.map Observation.readOut := readOut_eq_of_stopped hr
        _ = k.core.observation.map Observation.readOut := by rw [hobs]
        _ = some k.core.readOut := (readOut_eq_of_stopped hk).symm
    exact congrArg HostResponse.values hread

end Sys2Proof.Machine
end

section
/-! PROOFS of 30_encoding.md section 3's statements: where the emit pass writes (R131, R133), and that raw bytes assemble to
themselves (R119, R132, R134). -/

namespace Sys2Proof.Machine

variable {bc : BaseCode} {table : Locations}

/-! ### Errors in the passes -/

/-- Where two passes in a row succeed, the first did. -/
theorem except_bind_ok {ε α β : Type} {m : Except ε α} {f : α → Except ε β} {b : β} (h : m.bind f = .ok b) :
    ∃ a, m = .ok a ∧ f a = .ok b := by
  cases m with
  | ok a => exact ⟨a, rfl, h⟩
  | error e => cases h

theorem except_ok_bind {ε α β : Type} (a : α) (f : α → Except ε β) : (Except.ok a).bind f = f a := rfl

theorem except_error_bind {ε α β : Type} (e : ε) (f : α → Except ε β) : (Except.error e).bind f = .error e := rfl

theorem emit_cons (bc : BaseCode) (table : Locations) (i : AsmItem) (rest : List AsmItem) (cursor : Nat) (img : AsmImage) :
    emit bc table (i :: rest) cursor img = (itemBytes bc table i).bind fun bytes => (writeItem bytes cursor img).bind fun w =>
      (moveCursor i cursor).bind fun next => emit bc table rest next w := rfl

/-! ### The emit pass at its bounds -/

/-- An item that writes nothing only moves the cursor. -/
theorem emit_of_no_bytes {i : AsmItem} {cursor next : Nat} {rest : List AsmItem} {img : AsmImage}
    (hbytes : itemBytes bc table i = .ok []) (hmove : moveCursor i cursor = .ok next) :
    emit bc table (i :: rest) cursor img = emit bc table rest next img := by
  rw [emit_cons, hbytes, hmove]
  rfl

/-- Settles O52: the first byte of an item is checked before it is written, and labels and pads have no bytes. -/
theorem zeroPageIsNeverWritten : Obligations.ZeroPageIsNeverWritten := by
  refine ⟨fun bc table i rest b bs cursor img hlow hbytes => ?_, fun bc table rest name cursor img hcursor => ?_⟩
  · have hwrite : writeItem (b :: bs) cursor img = .error .zeroPageWriteViolation := if_pos hlow
    rw [emit_cons, hbytes, except_ok_bind, hwrite, except_error_bind]
  · have hstay : ¬ memSize < cursor + 0 := Nat.not_lt.2 hcursor
    refine ⟨emit_of_no_bytes rfl (if_neg hstay), fun pos => emit_of_no_bytes rfl (if_neg hstay),
      fun addr => emit_of_no_bytes rfl rfl, fun delta hdelta => emit_of_no_bytes rfl (if_neg (Nat.not_lt.2 hdelta))⟩

/-- No byte stands above 0xFFFF. -/
def AsmImage.inMemory (img : AsmImage) : Prop := ∀ h, img.highest = some h → h < memSize

theorem highestOf_lt {cursor : Nat} {img : AsmImage} (hc : cursor < memSize) (himg : img.inMemory) :
    highestOf cursor img.highest < memSize := by
  cases h : img.highest with
  | none => exact hc
  | some k => exact max_lt (himg k h) hc

theorem writeItem_inMemory {bytes : List Byte} {cursor : Nat} {img img' : AsmImage} (himg : img.inMemory)
    (h : writeItem bytes cursor img = .ok img') : img'.inMemory := by
  induction bytes generalizing cursor img with
  | nil => cases h; exact himg
  | cons b rest ih =>
    rw [writeItem] at h
    split at h
    · cases h
    · split at h
      · cases h
      · next hc =>
        refine ih (fun k hk => ?_) h
        rw [← Option.some.inj hk]
        exact highestOf_lt (Nat.lt_of_not_le hc) himg

theorem emit_inMemory {items : List AsmItem} {cursor : Nat} {img img' : AsmImage} (himg : img.inMemory)
    (h : emit bc table items cursor img = .ok img') : img'.inMemory := by
  induction items generalizing cursor img with
  | nil => cases h; exact himg
  | cons i rest ih =>
    rw [emit_cons] at h
    obtain ⟨bytes, -, h⟩ := except_bind_ok h
    obtain ⟨written, hwrite, h⟩ := except_bind_ok h
    obtain ⟨next, -, h⟩ := except_bind_ok h
    exact ih (writeItem_inMemory himg hwrite) h

theorem output_length_le {img : AsmImage} (himg : img.inMemory) : img.output.length ≤ maxImage := by
  unfold AsmImage.output
  cases h : img.highest with
  | none => exact Nat.zero_le _
  | some k =>
    have hk := himg k h
    simp only [List.length_map, List.length_range, toNat_resetPc, maxImage, memSize] at hk ⊢
    omega

theorem assemble_eq (sub : SubAddrSyntax) (bc : BaseCode) (source : AsmText) :
    assemble sub bc source = (lex source 0 .between).bind fun words => (parse sub bc words [] (.reading [])).bind fun parsed =>
      (expand parsed).bind fun items => (resolve items resetPc.toNat none []).bind fun table =>
        (emit bc table items resetPc.toNat { mem := [], highest := none }).bind fun img => .ok img.output := rfl

/-- Settles O51: nothing is written above 0xFFFF, and the image begins at 0x0100. -/
theorem assembledImageLoads : Obligations.AssembledImageLoads := by
  intro sub bc source image h
  rw [assemble_eq] at h
  obtain ⟨words, -, h⟩ := except_bind_ok h
  obtain ⟨parsed, -, h⟩ := except_bind_ok h
  obtain ⟨items, -, h⟩ := except_bind_ok h
  obtain ⟨table, -, h⟩ := except_bind_ok h
  obtain ⟨img, hemit, h⟩ := except_bind_ok h
  cases h
  have hlen := output_length_le (emit_inMemory (img := { mem := [], highest := none }) nofun hemit)
  refine ⟨hlen, fun h hfresh => ?_⟩
  rw [loadOnceBeforeTheFirstStep.1 _ h hfresh hlen]

/-! ### A run of hexadecimal digits is one word (R115, R119) -/

theorem hexDigit_hexChar (d : BitVec 4) : hexDigit (hexChar d) = some d := by revert d; decide

/-- A digit is none of the characters that mean something else. -/
theorem hexChar_ne (d : BitVec 4) {c : Char} (hc : hexDigit c = none) : hexChar d ≠ c := by
  rintro rfl
  rw [hexDigit_hexChar] at hc
  cases hc

theorem isBlank_hexChar (d : BitVec 4) : isBlank (hexChar d) = false := by revert d; decide

/-- The digits of bytes, high nibble first. -/
def nibbles : List Byte → List (BitVec 4)
  | [] => []
  | b :: rest => b.extractLsb' 4 4 :: b.extractLsb' 0 4 :: nibbles rest

theorem hexText_eq (bytes : List Byte) : hexText bytes = (nibbles bytes).map hexChar := by
  induction bytes with
  | nil => rfl
  | cons b rest ih => rw [hexText, ih]; rfl

theorem hexDigits_map_hexChar (ds : List (BitVec 4)) : hexDigits (ds.map hexChar) = some ds := by
  induction ds with
  | nil => rfl
  | cons d ds ih => simp only [List.map_cons, hexDigits, hexDigit_hexChar, ih]

theorem nibbles_append (b : Byte) : b.extractLsb' 4 4 ++ b.extractLsb' 0 4 = b := by revert b; decide

theorem pairBytes_nibbles (bytes : List Byte) : pairBytes (nibbles bytes) = some bytes := by
  induction bytes with
  | nil => rfl
  | cons b rest ih =>
    rw [nibbles, pairBytes, ih, Option.map_some, nibbles_append]

/-- In a word, digits to the end of the source end the word there. -/
theorem lex_word_digits (ds : List (BitVec 4)) (pos start : Nat) (chars : AsmText) :
    lex (ds.map hexChar) pos (.word start chars) = .ok [(start, chars.reverse ++ ds.map hexChar)] := by
  induction ds generalizing pos chars with
  | nil => simp [lex]
  | cons d ds ih => simp [lex, isBlank_hexChar, ih]

theorem lex_digits (d : BitVec 4) (ds : List (BitVec 4)) :
    lex ((d :: ds).map hexChar) 0 .between = .ok [(0, (d :: ds).map hexChar)] := by
  have hparen : hexChar d ≠ '(' := hexChar_ne d (by decide)
  simp [lex, isBlank_hexChar, hparen, lex_word_digits]

/-- No mnemonic begins with a digit. -/
theorem mnemonicOf_digit (d : BitVec 4) (w : AsmText) : mnemonicOf (hexChar d :: w) = none := by
  unfold mnemonicOf
  split
  case h_8 => rfl
  all_goals next heq => exact absurd (List.cons.inj heq).1 (hexChar_ne d (by decide))

/-- No directive begins with a digit. -/
theorem wordItems_digit (known : List AsmText) (pos : Nat) (d : BitVec 4) (w : AsmText) :
    wordItems (fun _ => none) bc known pos (hexChar d :: w) = plainWord bc known (hexChar d :: w) := by
  unfold wordItems
  dsimp only
  split
  case h_8 => rfl
  all_goals next heq => exact absurd (List.cons.inj heq).1 (hexChar_ne d (by decide))

theorem plainWord_digits (known : List AsmText) (d : BitVec 4) (ds : List (BitVec 4)) :
    plainWord bc known ((d :: ds).map hexChar) = (pairBytes (d :: ds)).map fun bs => bs.map AsmItem.byte := by
  have hdigits : hexDigits (hexChar d :: ds.map hexChar) = some (d :: ds) := hexDigits_map_hexChar (d :: ds)
  rw [List.map_cons, plainWord, mnemonicOf_digit, hdigits]

/-- A word that is neither a definition's first word nor a brace is its items. -/
theorem parse_word {sub : SubAddrSyntax} {known : List AsmText} {pos : Nat} {c : Char} {w : AsmText} {items : List AsmItem}
    (hdef : c ≠ '%') (hbrace : c ≠ closeBrace) (h : wordItems sub bc known pos (c :: w) = some items) :
    parse sub bc [(pos, c :: w)] known (.reading []) = .ok items := by
  have hclose : c :: w ≠ [closeBrace] := fun e => hbrace (List.cons.inj e).1
  unfold parse
  split
  · next heq => exact absurd (List.cons.inj heq).1 hdef
  · rw [if_neg hclose, h]
    show Except.ok (items ++ []) = _
    rw [List.append_nil]

/-- A source of digits parses to the raw bytes they stand for. -/
theorem parse_digits (d : BitVec 4) (ds : List (BitVec 4)) {bytes : List Byte} (h : pairBytes (d :: ds) = some bytes) :
    parse (fun _ => none) bc [(0, (d :: ds).map hexChar)] [] (.reading []) = .ok (bytes.map AsmItem.byte) := by
  refine parse_word (hexChar_ne d (by decide)) (hexChar_ne d (by decide)) ?_
  rw [wordItems_digit, ← List.map_cons, plainWord_digits, h]
  rfl

/-! ### Raw bytes through the later passes -/

theorem expandPass_bytes (bytes : List Byte) (bodies : List (AsmText × List AsmItem)) :
    expandPass (bytes.map AsmItem.byte) bodies = .ok (bytes.map AsmItem.byte) := by
  induction bytes with
  | nil => rfl
  | cons b rest ih =>
    rw [List.map_cons, expandPass, ih]
    · rfl
    all_goals exact nofun

theorem expand_bytes (bytes : List Byte) : expand (bytes.map AsmItem.byte) = .ok (bytes.map AsmItem.byte) := by
  have hnone : (bytes.map AsmItem.byte).any isMacroItem = false := by simp [isMacroItem]
  rw [expand, expandPass_bytes]
  show (if (bytes.map AsmItem.byte).any isMacroItem then _ else _) = _
  rw [hnone]
  rfl

/-- A byte moves the cursor on by one, up to 0x10000. -/
theorem moveCursor_byte (b : Byte) {cursor : Nat} (h : cursor < memSize) : moveCursor (.byte b) cursor = .ok (cursor + 1) :=
  if_neg (Nat.not_lt.2 h)

theorem resolve_bytes (bytes : List Byte) {cursor : Nat} (parent : Option AsmText) (h : cursor + bytes.length ≤ memSize) :
    resolve (bytes.map AsmItem.byte) cursor parent table = .ok table := by
  induction bytes generalizing cursor with
  | nil => rfl
  | cons b rest ih =>
    rw [List.length_cons] at h
    rw [List.map_cons, resolve, moveCursor_byte b (by omega)]
    · exact ih (by omega)
    all_goals exact nofun

/-- The highest address written when every byte from 0x0100 up to the cursor is. -/
def highestBelow (cursor : Nat) : Option Nat := if cursor = 0x0100 then none else some (cursor - 1)

theorem highestBelow_succ {cursor : Nat} (h : 0x0100 ≤ cursor) :
    some (highestOf cursor (highestBelow cursor)) = highestBelow (cursor + 1) := by
  have hsucc : highestBelow (cursor + 1) = some cursor := if_neg (by omega)
  rw [hsucc, highestBelow]
  split
  · rfl
  · rw [highestOf, max_eq_right (Nat.sub_le cursor 1)]

theorem writeItem_byte (b : Byte) {cursor : Nat} (img : AsmImage) (hlow : 0x0100 ≤ cursor) (hhigh : cursor < memSize) :
    writeItem [b] cursor img =
      .ok { mem := img.mem.write cursor b, highest := some (highestOf cursor img.highest) } := by
  rw [writeItem, toNat_resetPc, if_neg (Nat.not_lt.2 hlow), if_neg (Nat.not_le.2 hhigh), writeItem]

/-- Bytes one after the other are written at rising addresses. -/
theorem emit_bytes (bytes : List Byte) {cursor : Nat} (mem : Memory) (hlow : 0x0100 ≤ cursor)
    (hhigh : cursor + bytes.length ≤ memSize) :
    emit bc table (bytes.map AsmItem.byte) cursor { mem := mem, highest := highestBelow cursor } =
      .ok { mem := mem.writeBytes cursor bytes, highest := highestBelow (cursor + bytes.length) } := by
  induction bytes generalizing cursor mem with
  | nil => rfl
  | cons b rest ih =>
    rw [List.length_cons] at hhigh
    have hbytes : itemBytes bc table (.byte b) = .ok [b] := rfl
    have hin : cursor < memSize := by omega
    rw [List.map_cons, emit_cons, hbytes, except_ok_bind, writeItem_byte b _ hlow hin, except_ok_bind, moveCursor_byte b hin,
      except_ok_bind, highestBelow_succ hlow, ih (mem.write cursor b) (by omega) (by omega), List.length_cons,
      Nat.add_right_comm, ← Nat.add_assoc]
    rfl

/-- The output of `n` bytes written from 0x0100 on is those `n` bytes (R134, D29). -/
theorem output_highestBelow (mem : Memory) (n : Nat) :
    AsmImage.output { mem := mem, highest := highestBelow (0x0100 + n) } =
      (List.range n).map fun k => mem.read (0x0100 + k) := by
  unfold AsmImage.output highestBelow
  by_cases hn : n = 0
  · subst hn
    rfl
  · have hcount : 0x0100 + n - 1 + 1 - resetPc.toNat = n := by rw [toNat_resetPc]; omega
    simp only [if_neg (show ¬ 0x0100 + n = 0x0100 by omega), hcount]
    rfl

theorem output_writeBytes (bytes : List Byte) :
    AsmImage.output { mem := Memory.writeBytes [] 0x0100 bytes, highest := highestBelow (0x0100 + bytes.length) } = bytes := by
  rw [output_highestBelow]
  refine List.ext_getElem (by simp) fun k _ hk => ?_
  rw [List.getElem_map, List.getElem_range, Memory.read_writeBytes, if_pos ⟨Nat.le_add_right _ _, by omega⟩,
    Nat.add_sub_cancel_left, List.getD_eq_getElem _ _ hk]

/-- A source whose items are raw bytes that fit assembles to those bytes. -/
theorem assemble_of_parse {sub : SubAddrSyntax} {source : AsmText} {words : List (Nat × AsmText)} {bytes : List Byte}
    (hlex : lex source 0 .between = .ok words)
    (hparse : parse sub bc words [] (.reading []) = .ok (bytes.map AsmItem.byte)) (hlen : bytes.length ≤ maxImage) :
    assemble sub bc source = .ok bytes := by
  have hfits : 0x0100 + bytes.length ≤ memSize := by
    have h1 : maxImage = 0xFF00 := rfl
    have h2 : memSize = 0x10000 := rfl
    omega
  have hresolve : resolve (bytes.map AsmItem.byte) resetPc.toNat none [] = .ok [] := resolve_bytes bytes none hfits
  have hemit : emit bc [] (bytes.map AsmItem.byte) resetPc.toNat { mem := [], highest := none } = _ :=
    emit_bytes bytes [] le_rfl hfits
  rw [assemble_eq, hlex, except_ok_bind, hparse, except_ok_bind, expand_bytes, except_ok_bind, hresolve, except_ok_bind,
    hemit, except_ok_bind]
  exact congrArg Except.ok (output_writeBytes bytes)

/-- Settles O53: with no bytes the source has no word; else it is one word of digits, read in pairs. -/
theorem rawBytesAssembleToThemselves : Obligations.RawBytesAssembleToThemselves := by
  intro bc bytes hlen
  cases bytes with
  | nil => exact assemble_of_parse (words := []) rfl rfl hlen
  | cons b rest =>
    rw [hexText_eq]
    exact assemble_of_parse (lex_digits _ _) (parse_digits _ _ (pairBytes_nibbles (b :: rest))) hlen

end Sys2Proof.Machine
end
